-- ==== Sys2Proof/Word.lean ====
section
/-! DEFINITION. The widths of the spec: a byte of the window, an instruction word, an address (R3, R6, R52). -/

namespace Sys2Proof

/-- One byte of the input window (R35). -/
abbrev Byte := BitVec 8

/-- An instruction word, bit 0 the least significant (R6). A word of the 16-bit class stands in the low
half, the upper half zero (R52; assumption log 14). -/
abbrev Word := BitVec 32

/-- An address of the caller's space: `ADDR_WIDTH` is 64 (R3, R37). -/
abbrev Addr := BitVec 64

/-- A signed 32-bit value: `IMM_WIDTH` and `DISP_WIDTH` are 32 (R3, R18, R19). -/
abbrev Value := BitVec 32

end Sys2Proof
end

