-- ==== Sys2Proof/Config.lean ====
section
/-! DEFINITION. What is fixed for one block and never written (R3, R11): the parameters, the shape of the
dispatch table `FMT_TABLE` (R54, R57, R58) and the two enumerations its entries name (R23, R24). -/

namespace Sys2Proof

namespace Config

/-- `MAX_OPERANDS` (R3, R13). -/
def maxOperands : Nat := 8

/-- `MIN_LEN`, in bytes (R3, R50). -/
def minLen : Nat := 2

/-- The two instruction lengths, in bytes: `LENGTHS` (R3, R50). -/
def lengths : List Nat := [2, 4]

/-- `RET_IS_JUMP` (R3, D12): OPEN. No body: a statement about RET holds for both values
(assumption log 6). -/
opaque retIsJump : Bool

end Config

/-- The operand class `resolve` is given: general, address or extended register file (R57, R80). -/
inductive RegClass where
  | gpr
  | addr
  | ext
  deriving DecidableEq, Repr

/-- Whether a field is sign- or zero-extended (R57, R60). -/
inductive Extension where
  | signed
  | unsigned
  deriving DecidableEq, Repr

/-- A piece `(hi, lo)`: bits `hi` down to `lo` of the instruction word (R58). -/
structure Piece where
  hi : Nat
  lo : Nat
  deriving DecidableEq, Repr

/-- A field descriptor, one of exactly three shapes (R57). -/
inductive Descriptor where
  | regOp (cls : RegClass) (field : Piece)
  | immOp (pieces : List Piece) (ext : Extension)
  | memOp (cls : RegClass) (basefield : Piece) (pieces : List Piece) (ext : Extension)
  deriving DecidableEq, Repr

/-- A Mnemonic ID (R23): the sentinel `INVALID`, a real mnemonic of the table's own set `M`, or the
sentinel `ENDING`. -/
inductive Mnemonic (M : Type) where
  | invalid
  | real (m : M)
  | ending
  deriving DecidableEq, Repr

/-- The real mnemonics of `REF_TABLE` (R23). -/
inductive RefMnemonic where
  | ldW
  | mov
  | ret
  deriving DecidableEq, Repr

/-- A Group ID (R24): the two sentinels and the one group the source names. -/
inductive Group where
  | invalid
  | jump
  | ending
  deriving DecidableEq, Repr

/-- A subset of {JUMP}: the group set of a record or an entry, without sentinels (R24, D30). -/
structure GroupSet where
  jump : Bool
  deriving DecidableEq, Repr

/-- One entry of `FMT_TABLE` (R54). The real mnemonics are the table's own type `M` (R23). -/
structure Entry (M : Type) where
  len      : Nat
  mask     : Word
  pat      : Word            -- the component the spec calls `match`
  mnemonic : Mnemonic M
  groups   : GroupSet
  slots    : List Descriptor
  deriving DecidableEq, Repr

/-- `FMT_TABLE`: an ordered list of entries (R54). -/
abbrev Table (M : Type) := List (Entry M)

end Sys2Proof
end

