-- ==== Sys2Proof/Machine/Flags.lean ====
section
/-! DEFINITION. The block has no flags and no condition codes (R28). The one classification bit it reports is the
membership of a record in the group JUMP (R24, R115, R124). -/

namespace Sys2Proof.Machine

/-- `{}`: the groups of every MOV and LD_W row and of the INVALID record (R64, R118). -/
def noGroups : GroupSet := { jump := false }

/-- `G`: {JUMP} if `RET_IS_JUMP` is true, {} if false (R64, R150, R151, D12). -/
def retGroups (retIsJump : Bool) : GroupSet := { jump := retIsJump }

/-- Membership in a group set; the sentinels are never members (R24). -/
def groupContains (g : GroupSet) : Group → Bool
  | .invalid => false
  | .jump => g.jump
  | .ending => false

end Sys2Proof.Machine
end

