-- ==== Sys2Proof/Syntax.lean ====
section
/-! DEFINITION. The instructions of `REF_TABLE` (R64): one constructor per row of spec/opcode_table.json, each
with the raw operand fields its format gives (R62, R63). Don't-care bits are no operands (R55, D6). -/

namespace Sys2Proof

inductive Instr where
  /-- MOV_SRC: `MOV D[a], const4` (R140) -/
  | movSrc (a const4 : BitVec 4)
  /-- MOV_SRR: `MOV D[a], D[b]` (R141) -/
  | movSrr (a b : BitVec 4)
  /-- MOV_E_SRC: `MOV E[a], const4` (R143) -/
  | movESrc (a const4 : BitVec 4)
  /-- RET_SR: `RET`, 16-bit (R150) -/
  | retSr
  /-- LD_W_SLR: `LD.W D[c], [A[b]]` (R157) -/
  | ldWSlr (c b : BitVec 4)
  /-- MOV_RLC: `MOV D[c], const16` (R142) -/
  | movRlc (c : BitVec 4) (const16 : BitVec 16)
  /-- RET_SYS: `RET`, 32-bit (R151) -/
  | retSys
  /-- LD_W_BO: `LD.W D[a], [A[b]+off10]` (R155) -/
  | ldWBo (a b : BitVec 4) (off10 : BitVec 10)
  /-- LD_W_BOL: `LD.W D[a], [A[b]+off16]` (R156) -/
  | ldWBol (a b : BitVec 4) (off16 : BitVec 16)
  deriving DecidableEq, Repr

/-- The length of the row in bytes (R64, column `len`). -/
def Instr.length : Instr → Nat
  | .movSrc _ _ => 2
  | .movSrr _ _ => 2
  | .movESrc _ _ => 2
  | .retSr => 2
  | .ldWSlr _ _ => 2
  | .movRlc _ _ => 4
  | .retSys => 4
  | .ldWBo _ _ _ => 4
  | .ldWBol _ _ _ => 4

end Sys2Proof
end

