-- ==== Sys2Proof/WellFormed.lean ====
section
/-! DEFINITION. Well-formed instructions (R83) and well-formed dispatch tables: the conditions W1 to W11 of R56,
each with a name of its own, and the refusal of an ill-formed table when the model is configured (R56, R205). -/

namespace Sys2Proof

/-- Every register field of the instruction names a register of the catalog: an extended register has an
even number (R83); every 4-bit number names a D and an A register (R81, R82). An ill-formed `movESrc` still
has an effect: the INVALID record (R143). -/
def Instr.WellFormed : Instr → Bool
  | .movESrc a _ => a.toNat % 2 == 0
  | .movSrc _ _ => true
  | .movSrr _ _ => true
  | .retSr => true
  | .ldWSlr _ _ => true
  | .movRlc _ _ => true
  | .retSys => true
  | .ldWBo _ _ _ => true
  | .ldWBol _ _ _ => true

/-- The conditions of R56 on a single entry. W10 is a condition on pairs (below); W7, a register field is one
piece, is built into `Descriptor`. -/
inductive TableDefect where
  | w1 | w2 | w3 | w4 | w5 | w6 | w8 | w9 | w11
  deriving DecidableEq, Repr

/-- `hi − lo + 1` (R58). -/
def Piece.width (p : Piece) : Nat := p.hi - p.lo + 1

/-- `N = Σ (hi_i − lo_i + 1)` (R58). -/
def totalWidth (ps : List Piece) : Nat := (ps.map Piece.width).sum

/-- W6 for one piece: `0 ≤ lo ≤ hi < 8·len` (R56). -/
def Piece.inside (len : Nat) (p : Piece) : Bool := p.lo ≤ p.hi && p.hi < 8 * len

/-- W8: the width bound that keeps the value a signed 32-bit value (R56). -/
def widthOk (ps : List Piece) : Extension → Bool
  | .signed => 1 ≤ totalWidth ps && totalWidth ps ≤ 32
  | .unsigned => 1 ≤ totalWidth ps && totalWidth ps ≤ 31

/-- Every piece of a descriptor. -/
def Descriptor.pieces : Descriptor → List Piece
  | .regOp _ f => [f]
  | .immOp ps _ => ps
  | .memOp _ f ps _ => f :: ps

/-- W8 on an immediate: at least one piece, and the width bound (R56). -/
def Descriptor.immediateOk : Descriptor → Bool
  | .immOp ps x => !ps.isEmpty && widthOk ps x
  | .regOp _ _ => true
  | .memOp _ _ _ _ => true

/-- W9 on a displacement: no piece, or W8's bound (R56). -/
def Descriptor.displacementOk : Descriptor → Bool
  | .memOp _ _ ps x => ps.isEmpty || widthOk ps x
  | .regOp _ _ => true
  | .immOp _ _ => true

/-- `mnemonic` is neither sentinel (W4 of R56). -/
def Mnemonic.isReal {M : Type} : Mnemonic M → Bool
  | .real _ => true
  | .invalid => false
  | .ending => false

/-- Bits 31 .. 8·len of `mask` and `match` are zero and `match AND NOT mask = 0` (W2 of R56). -/
def Entry.w2 {M : Type} (e : Entry M) : Bool :=
  e.mask.toNat < 2 ^ (8 * e.len) && e.pat.toNat < 2 ^ (8 * e.len) && e.pat &&& ~~~e.mask == 0

/-- `mask[0] = 1`, and `match[0]` agrees with the length class (W3 of R56, R51). -/
def Entry.w3 {M : Type} (e : Entry M) : Bool :=
  e.mask.getLsbD 0 && e.pat.getLsbD 0 == (e.len == 4)

/-- The conditions of R56 that the entry breaks, in the order of the rule's table. -/
def Entry.defects {M : Type} (e : Entry M) : List TableDefect :=
  (if Config.lengths.contains e.len then [] else [.w1]) ++
  (if e.w2 then [] else [.w2]) ++
  (if e.w3 then [] else [.w3]) ++
  (if e.mnemonic.isReal then [] else [.w4]) ++
  (if e.slots.length ≤ Config.maxOperands then [] else [.w5]) ++
  (if e.slots.all fun d => d.pieces.all (Piece.inside e.len) then [] else [.w6]) ++
  (if e.slots.all Descriptor.immediateOk then [] else [.w8]) ++
  (if e.slots.all Descriptor.displacementOk then [] else [.w9]) ++
  (if e.len == 2 && e.pat == 0 then [.w11] else [])

/-- The second half of W7: every register field of the entry is `REG_FIELD_WIDTH` = 4 bits wide. R56 asks it
of `REF_TABLE` only (R59, D10). -/
def Entry.regFields4 {M : Type} (e : Entry M) : Bool :=
  e.slots.all fun
    | .regOp _ f => f.width == 4
    | .memOp _ f _ _ => f.width == 4
    | .immOp _ _ => true

/-- A table is well-formed when every entry satisfies W1 to W9 and W11 (R56). -/
def Table.wf {M : Type} (t : Table M) : Bool := t.all fun e => e.defects.isEmpty

/-- W10 for a pair: some bit both masks name has different values (R56). -/
def Entry.disjoint {M : Type} (e f : Entry M) : Bool :=
  e.len != f.len || e.mask &&& f.mask &&& (e.pat ^^^ f.pat) != 0

/-- W10, unambiguous: any two entries at different places are told apart (R56; assumption log 13). -/
def Table.unambiguous {M : Type} : Table M → Bool
  | [] => true
  | e :: t => t.all e.disjoint && Table.unambiguous t

/-- "The model takes only well-formed tables (a table that is not is refused when the model is configured,
not at decode time)" (R56, R205): the answer is the table, or the defects by name. -/
def Table.configure {M : Type} (t : Table M) : Except (List TableDefect) (Table M) :=
  if Table.wf t then .ok t else .error (t.flatMap Entry.defects)

end Sys2Proof
end

