-- ==== Sys2Proof/Decode.lean ====
section
/-! DEFINITION. From bytes to an instruction: reading the window (R38, R41, R42), the length class (R51, R112),
the dispatch of `REF_TABLE`'s nine rows on their opcode fields (R62 to R64, R114), and, after it, the encoder. -/

namespace Sys2Proof

/-- The three failure causes, and no other (R170). -/
inductive DecodeError where
  /-- "bit pattern matches no known format": raised by dispatch; `decode` answers the INVALID record (R171) -/
  | unrecognizedOpcode
  /-- a register field names no register: raised by `resolve`; `decode` answers the INVALID record (R172) -/
  | unknownRegister
  /-- fewer bytes than the format requires: the one `Err` of `decode` (R173) -/
  | bufferTooShort
  deriving DecidableEq, Repr

/-! ## The window -/

/-- Bytes assembled little-endian, the first byte the least significant (R38). -/
def leValue : List Byte → Nat
  | [] => 0
  | b :: bs => b.toNat + 256 * leValue bs

/-- `MemRead(off, n)`: defined only when `off + n ≤ in_avail` (R6, R42). -/
def memRead (win : List Byte) (off n : Nat) : Option Nat :=
  if off + n ≤ win.length then some (leValue ((win.drop off).take n)) else none

/-- `len_class(hw0)`: 4 if bit 0 of the first halfword is 1, else 2 (R51, R112). -/
def lenClass (hw0 : Nat) : Nat := if hw0 % 2 = 1 then 4 else 2

/-- The checks and reads before dispatch: the length `L` and the instruction word (R111 to R113, R52, R176).
The halfword already read is the word of the 16-bit class (R41). -/
def fetchWord (win : List Byte) : Except DecodeError (Nat × Word) :=
  match memRead win 0 2 with
  | none => .error .bufferTooShort
  | some hw0 =>
    if lenClass hw0 = 4 then
      match memRead win 0 4 with
      | none => .error .bufferTooShort
      | some w => .ok (4, BitVec.ofNat 32 w)
    else .ok (2, BitVec.ofNat 32 hw0)

/-! ## The formats (R62, R63) -/

/-- `op1 = w[7:0]`, the primary opcode of every format. -/
def fieldOp1 (w : Word) : BitVec 8 := w.extractLsb' 0 8

/-- `w[11:8]`: `s1/d` of SRC, SRR, SR, SYS, BO and BOL, `d` of SLR. -/
def field11_8 (w : Word) : BitVec 4 := w.extractLsb' 8 4

/-- `w[15:12]`: `const4` of SRC, `s2` of SRR, SLR, BO and BOL, `op2` of SR. -/
def field15_12 (w : Word) : BitVec 4 := w.extractLsb' 12 4

/-- `w[31:28]`: `d` of RLC, `off10[9:6]` of BO, `off16[9:6]` of BOL. -/
def field31_28 (w : Word) : BitVec 4 := w.extractLsb' 28 4

/-- `w[27:22]`: `op2` of SYS and BO, `off16[15:10]` of BOL. -/
def field27_22 (w : Word) : BitVec 6 := w.extractLsb' 22 6

/-- `w[21:16]`: `off10[5:0]` of BO, `off16[5:0]` of BOL. -/
def field21_16 (w : Word) : BitVec 6 := w.extractLsb' 16 6

/-- `w[27:12]`: `const16` of RLC. -/
def field27_12 (w : Word) : BitVec 16 := w.extractLsb' 12 16

/-- BO: `off10 = w[31:28] ++ w[21:16]` (R63). -/
def fieldOff10 (w : Word) : BitVec 10 := (field31_28 w ++ field21_16 w).cast rfl

/-- BOL: `off16 = w[27:22] ++ w[31:28] ++ w[21:16]` (R63). -/
def fieldOff16 (w : Word) : BitVec 16 := (field27_22 w ++ (field31_28 w ++ field21_16 w)).cast rfl

/-! ## Dispatch -/

/-- The 16-bit rows of `REF_TABLE`, rows 1 to 5 (R64). -/
def decode16 (w : Word) : Except DecodeError Instr :=
  if fieldOp1 w = 0x82 then .ok (.movSrc (field11_8 w) (field15_12 w))
  else if fieldOp1 w = 0x02 then .ok (.movSrr (field11_8 w) (field15_12 w))
  else if fieldOp1 w = 0xD2 then .ok (.movESrc (field11_8 w) (field15_12 w))
  else if fieldOp1 w = 0x00 ∧ field15_12 w = 0x9 then .ok .retSr
  else if fieldOp1 w = 0x54 then .ok (.ldWSlr (field11_8 w) (field15_12 w))
  else .error .unrecognizedOpcode

/-- The 32-bit rows of `REF_TABLE`, rows 6 to 9 (R64). -/
def decode32 (w : Word) : Except DecodeError Instr :=
  if fieldOp1 w = 0x3B then .ok (.movRlc (field31_28 w) (field27_12 w))
  else if fieldOp1 w = 0x0D ∧ field27_22 w = 0x06 then .ok .retSys
  else if fieldOp1 w = 0x09 ∧ field27_22 w = 0x24 then
    .ok (.ldWBo (field11_8 w) (field15_12 w) (fieldOff10 w))
  else if fieldOp1 w = 0x19 then .ok (.ldWBol (field11_8 w) (field15_12 w) (fieldOff16 w))
  else .error .unrecognizedOpcode

/-- Dispatch of a word of length class `len` (R114): the row whose opcode fields it has, or
`UnrecognizedOpcode` (R70). A register field that names no register is found later, when the operands are
built (R116, R119; assumption log 10). -/
def decodeWord (len : Nat) (w : Word) : Except DecodeError Instr :=
  if len = 4 then decode32 w else decode16 w

/-- The instruction at the start of a window and the bytes after it, or the failure by name. -/
def decodeBytes (win : List Byte) : Except DecodeError (Instr × List Byte) :=
  match fetchWord win with
  | .error e => .error e
  | .ok (len, w) =>
    match decodeWord len w with
    | .error e => .error e
    | .ok i => .ok (i, win.drop len)

/-! ## The encoder -/

/-- A field placed with its lowest bit at bit `lo` of the word (R62, R63). -/
def place {n : Nat} (v : BitVec n) (lo : Nat) : Word := v.setWidth 32 <<< lo

/-- The word of an instruction, its fields placed as R62 and R63 place them; don't-care bits are written as
zero (assumption log 9: the block itself encodes nothing, R5). -/
def encodeWord : Instr → Word
  | .movSrc a c => place c 12 ||| place a 8 ||| 0x82
  | .movSrr a b => place b 12 ||| place a 8 ||| 0x02
  | .movESrc a c => place c 12 ||| place a 8 ||| 0xD2
  | .retSr => place 0x9#4 12 ||| 0x00
  | .ldWSlr c b => place b 12 ||| place c 8 ||| 0x54
  | .movRlc c k => place c 28 ||| place k 12 ||| 0x3B
  | .retSys => place 0x06#6 22 ||| 0x0D
  | .ldWBo a b o =>
    place (o.extractLsb' 6 4) 28 ||| place 0x24#6 22 ||| place (o.extractLsb' 0 6) 16 |||
      place b 12 ||| place a 8 ||| 0x09
  | .ldWBol a b o =>
    place (o.extractLsb' 6 4) 28 ||| place (o.extractLsb' 10 6) 22 ||| place (o.extractLsb' 0 6) 16 |||
      place b 12 ||| place a 8 ||| 0x19

/-- The low `n` bytes of a number, least significant first (R38). -/
def leBytes : Nat → Nat → List Byte
  | 0, _ => []
  | n + 1, v => BitVec.ofNat 8 v :: leBytes n (v / 256)

/-- The bytes of an instruction, lowest address first. -/
def encode (i : Instr) : List Byte := leBytes i.length (encodeWord i).toNat

/-- The bits of the row that are opcode or operand field; the rest are don't-care (R55, R64, D6). -/
def careMask : Instr → Word
  | .movSrc _ _ => 0x0000FFFF
  | .movSrr _ _ => 0x0000FFFF
  | .movESrc _ _ => 0x0000FFFF
  | .retSr => 0x0000F0FF
  | .ldWSlr _ _ => 0x0000FFFF
  | .movRlc _ _ => 0xFFFFF0FF
  | .retSys => 0x0FC000FF
  | .ldWBo _ _ _ => 0xFFFFFFFF
  | .ldWBol _ _ _ => 0xFFFFFFFF

/-- The four bytes, the longest instruction, of a word the opcode table gives `nbits` bits; every bit above
them is zero. -/
def tableWordBytes (nbits w : Nat) : List Byte := leBytes 4 (w % 2 ^ nbits)

/-- The instruction this decoder reads from a word numbered as spec/opcode_table.json numbers it. -/
def decodeTableWord (nbits w : Nat) : Option Instr :=
  match decodeBytes (tableWordBytes nbits w) with
  | .ok (i, _) => some i
  | .error _ => none

end Sys2Proof
end

