-- ==== Sys2Proof/Machine/Record.lean ====
section
/-! DEFINITION. The values that go out: register names (R21), operands (R15), the Instruction Record (R12) and
the two shapes of a result (R120). -/

namespace Sys2Proof.Machine

/-- The 44 names of the Register Catalog (R21). They are names, never storage (R27). The sentinel `INVALID`
is no constructor (an absent register is an `Option` or an `Except`), and `ENDING` is the number 45. -/
inductive RegisterId where
  | d0 | d1 | d2 | d3 | d4 | d5 | d6 | d7 | d8 | d9 | d10 | d11 | d12 | d13 | d14 | d15
  | a0 | a1 | a2 | a3 | a4 | a5 | a6 | a7 | a8 | a9 | a10 | a11 | a12 | a13 | a14 | a15
  | e0 | e2 | e4 | e6 | e8 | e10 | e12 | e14
  | psw | pcxi | pc | fcx
  deriving DecidableEq, Repr

/-- An operand: exactly one of four variants (R15). The payload cannot be read under a wrong tag (R20). -/
inductive Operand where
  | invalid
  | register (id : RegisterId)
  | immediate (value : Value)
  | memory (base : RegisterId) (displacement : Value)
  deriving DecidableEq, Repr

/-- The ordered sequence of 8 operands of a record: the ports `out_op[0]` to `out_op[7]` (R12, R29). -/
structure OperandSlots where
  op0 : Operand
  op1 : Operand
  op2 : Operand
  op3 : Operand
  op4 : Operand
  op5 : Operand
  op6 : Operand
  op7 : Operand
  deriving DecidableEq, Repr

/-- The Instruction Record (R12): the output of one successful `decode`. -/
structure Record (M : Type) where
  mnemonic     : Mnemonic M
  groups       : GroupSet
  operandCount : Nat
  operands     : OperandSlots
  deriving DecidableEq, Repr

/-- `Ok(record, length_consumed)` or `Err(BufferTooShort)`, the only `Err` of `decode` (R110, R120). -/
inductive DecodeResult (M : Type) where
  | ok (record : Record M) (length : Nat)
  | bufferTooShort
  deriving DecidableEq, Repr

/-- One element of a scan's output: the offset, the record, the length consumed there (R125). -/
structure ScanEntry (M : Type) where
  off    : Nat
  record : Record M
  length : Nat
  deriving DecidableEq, Repr

/-- How far a scan is: still in its loop, or returned with one of its two final statuses (R125). -/
inductive ScanStatus where
  | running
  | done
  | stoppedShort (off : Nat)
  deriving DecidableEq, Repr

end Sys2Proof.Machine
end

