-- ==== Sys2Proof/Machine/Catalog.lean ====
section
/-! DEFINITION. The Register Catalog: the classes in numeric order (R21), `resolve` (R80 to R84), and the
numeric IDs, tags and codes, kept apart from the symbolic values as a replaceable rendering (R22 to R24). -/

namespace Sys2Proof.Machine

/-- D0..D15, "general-purpose" (R21, R81). -/
def gprRegs : List RegisterId :=
  [.d0, .d1, .d2, .d3, .d4, .d5, .d6, .d7, .d8, .d9, .d10, .d11, .d12, .d13, .d14, .d15]

/-- A0..A15, "address" (R21, R82). -/
def addrRegs : List RegisterId :=
  [.a0, .a1, .a2, .a3, .a4, .a5, .a6, .a7, .a8, .a9, .a10, .a11, .a12, .a13, .a14, .a15]

/-- E0, E2, .., E14, "extended 64-bit pairs" (R21, R83). -/
def extRegs : List RegisterId := [.e0, .e2, .e4, .e6, .e8, .e10, .e12, .e14]

/-- The control-register names, which nothing resolves to (R27). -/
def controlRegs : List RegisterId := [.psw, .pcxi, .pc, .fcx]

/-- The catalog in the order of the numeric IDs 1 to 44 (R22). -/
def allRegs : List RegisterId := gprRegs ++ addrRegs ++ extRegs ++ controlRegs

/-- D[n], for a 4-bit register number. -/
def dReg (n : BitVec 4) : RegisterId := gprRegs.getD n.toNat .d0

/-- A[n], for a 4-bit register number. -/
def aReg (n : BitVec 4) : RegisterId := addrRegs.getD n.toNat .a0

/-- E[n], for an even 4-bit register number. -/
def eReg (n : BitVec 4) : RegisterId := extRegs.getD (n.toNat / 2) .e0

/-- The register at a place of a class's list; past its end there is no register (R84). -/
def lookupReg (regs : List RegisterId) (n : Nat) : Except DecodeError RegisterId :=
  match regs[n]? with
  | some r => .ok r
  | none => .error .unknownRegister

/-- `resolve(class, raw)` (R80 to R83): total, with no clamping, masking or wrap-around of `raw` (R84). -/
def resolve : RegClass → Nat → Except DecodeError RegisterId
  | .gpr, raw => lookupReg gprRegs raw
  | .addr, raw => lookupReg addrRegs raw
  | .ext, raw => if raw % 2 = 0 then lookupReg extRegs (raw / 2) else .error .unknownRegister

/-- One of the 40 names `resolve` can answer: not a control register (R27, R123(c)). -/
def RegisterId.resolvable (r : RegisterId) : Bool := !controlRegs.contains r

/-! ## Numeric renderings -/

/-- The numeric ID of a register (R22, D9). -/
def RegisterId.id (r : RegisterId) : Nat := allRegs.idxOf r + 1

/-- The register of a numeric ID; none for the sentinel 0 and from `ENDING` on (R21, R22). -/
def RegisterId.ofId : Nat → Option RegisterId
  | 0 => none
  | n + 1 => allRegs[n]?

/-- `ENDING`, the count marker of the registers (R21). -/
def registerEnding : Nat := 45

/-- The largest of a list of numbers, 0 for the empty list. -/
def largest (ns : List Nat) : Nat := ns.foldr max 0

/-- `MNEMONIC_ID` of `REF_TABLE` (R23, D11). -/
def refMnemonicId : RefMnemonic → Nat
  | .ldW => 1
  | .mov => 2
  | .ret => 3

/-- The real mnemonics of `REF_TABLE`, in the order of their IDs (R23). -/
def refMnemonics : List RefMnemonic := [.ldW, .mov, .ret]

/-- A numbering of a table's mnemonics is valid: injective, and every ID at least 1 (R3, D11). The numbering of
a table other than `REF_TABLE` is an open parameter. -/
def validNumbering {M : Type} (ms : List M) (id : M → Nat) : Bool :=
  (ms.map id).all (1 ≤ ·) && decide (ms.map id).Nodup

/-- The numeric ID of a mnemonic under a numbering of the table's mnemonics: `INVALID` is 0, `ENDING` is one
more than the largest (R23, D11). -/
def mnemonicId {M : Type} (ms : List M) (id : M → Nat) : Mnemonic M → Nat
  | .invalid => 0
  | .real m => id m
  | .ending => largest (ms.map id) + 1

/-- INVALID=0, JUMP=1, ENDING=2 (R24, D12). -/
def groupId : Group → Nat
  | .invalid => 0
  | .jump => 1
  | .ending => 2

/-- Invalid=0, Register=1, Immediate=2, Memory=3 (R15, D13). -/
def Operand.tag : Operand → Nat
  | .invalid => 0
  | .register _ => 1
  | .immediate _ => 2
  | .memory _ _ => 3

/-- `out_status`: Ok=0, BufferTooShort=1 (R170, D14). -/
def DecodeResult.statusCode {M : Type} : DecodeResult M → Nat
  | .ok _ _ => 0
  | .bufferTooShort => 1

end Sys2Proof.Machine
end

