-- ==== Sys2Proof/Machine/Operands.lean ====
section
/-! DEFINITION. The Operand Builder: `extract`, `gather`, `sext_N`, `zext_N`, `extend` (R90 to R94) and the three
operand forms (R95 to R99). Each form is said once on raw field values; `build` takes them from the word by a
descriptor, the instructions' meanings from their own fields. -/

namespace Sys2Proof.Machine

/-- `extract(w, (hi, lo)) = w[hi:lo]`, unsigned: `(w >> lo) mod 2^(hi−lo+1)` (R90). -/
def extract (w : Word) (p : Piece) : Nat := w.toNat / 2 ^ p.lo % 2 ^ p.width

/-- `gather(w, pieces)`: the concatenation, first piece most significant, and its width (R58, R91). -/
def gather (w : Word) (ps : List Piece) : Nat × Nat :=
  ps.foldl (fun rn p => (rn.1 * 2 ^ p.width + extract w p, rn.2 + p.width)) (0, 0)

/-- The integer `sext_N(r)` denotes: `r` if `r < 2^(N−1)`, else `r − 2^N` (R92). -/
def sextInt (n r : Nat) : Int := if r < 2 ^ (n - 1) then (r : Int) else (r : Int) - 2 ^ n

/-- `sext_N(r)` as 32 bits: the two's-complement pattern of that integer (R92). -/
def sext (n r : Nat) : Value := BitVec.ofInt 32 (sextInt n r)

/-- `zext_N(r)`: the integer `r` as 32 bits (R93). -/
def zext (r : Nat) : Value := BitVec.ofNat 32 r

/-- `extend(ext, r, N)`; 0 if there is no field (R94). -/
def extend (ext : Extension) (r n : Nat) : Value :=
  if n = 0 then 0
  else match ext with
    | .signed => sext n r
    | .unsigned => zext r

/-- The register operand of a raw field (R96). -/
def buildRegister (cls : RegClass) (raw : Nat) : Except DecodeError Operand :=
  match resolve cls raw with
  | .ok id => .ok (.register id)
  | .error e => .error e

/-- The immediate operand of a raw field of `n` bits; it never fails (R99). -/
def buildImmediate (ext : Extension) (r n : Nat) : Except DecodeError Operand :=
  .ok (.immediate (extend ext r n))

/-- The memory operand: base and displacement side by side, neither added to the other (R97). -/
def buildMemory (cls : RegClass) (raw : Nat) (ext : Extension) (r n : Nat) : Except DecodeError Operand :=
  match resolve cls raw with
  | .ok base => .ok (.memory base (extend ext r n))
  | .error e => .error e

/-- `build(descriptor, w)` (R95); `UnknownRegister` passes through unchanged (R98). -/
def build (d : Descriptor) (w : Word) : Except DecodeError Operand :=
  match d with
  | .regOp cls field => buildRegister cls (extract w field)
  | .immOp ps ext => buildImmediate ext (gather w ps).1 (gather w ps).2
  | .memOp cls basefield ps ext =>
    buildMemory cls (extract w basefield) ext (gather w ps).1 (gather w ps).2

/-- Slot `j` of a record (R14). -/
def OperandSlots.get (o : OperandSlots) (j : Nat) : Operand :=
  [o.op0, o.op1, o.op2, o.op3, o.op4, o.op5, o.op6, o.op7].getD j .invalid

/-- "ops ++ [Invalid, ..] up to 8 slots" (R110, R30). -/
def OperandSlots.ofList (ops : List Operand) : OperandSlots :=
  { op0 := ops.getD 0 .invalid, op1 := ops.getD 1 .invalid, op2 := ops.getD 2 .invalid
    op3 := ops.getD 3 .invalid, op4 := ops.getD 4 .invalid, op5 := ops.getD 5 .invalid
    op6 := ops.getD 6 .invalid, op7 := ops.getD 7 .invalid }

/-- The slots' results in order, or the first failure, slot 0 first (R116, R178). -/
def collect : List (Except DecodeError Operand) → Except DecodeError (List Operand)
  | [] => .ok []
  | .error e :: _ => .error e
  | .ok op :: rest =>
    match collect rest with
    | .ok ops => .ok (op :: ops)
    | .error e => .error e

end Sys2Proof.Machine
end

