-- ==== Sys2Proof/Machine/Decoder.lean ====
section
/-! DEFINITION. The Instruction Decoder for ANY dispatch table: dispatch (R55, R114), the record of a matched
entry (R115 to R117, R119), `decode` (R110), and the sequential scan of a buffer (R125). -/

namespace Sys2Proof.Machine

/-- `INVALID_RECORD` (R110, R118). -/
def invalidRecord {M : Type} : Record M :=
  { mnemonic := .invalid, groups := noGroups, operandCount := 0, operands := OperandSlots.ofList [] }

/-- The record of a recognised word from its mnemonic, groups and slot results in order: the whole record, or
`INVALID_RECORD` if any slot failed; no partial record (R115 to R117, R119). -/
def recordOf {M : Type} (m : Mnemonic M) (g : GroupSet) (built : List (Except DecodeError Operand)) : Record M :=
  match collect built with
  | .ok ops => { mnemonic := m, groups := g, operandCount := ops.length, operands := OperandSlots.ofList ops }
  | .error _ => invalidRecord

/-- A word of length class `len` matches an entry (R55). -/
def Entry.matches {M : Type} (e : Entry M) (len : Nat) (w : Word) : Bool :=
  e.len == len && w &&& e.mask == e.pat

/-- The first entry, in list order, that the word matches (R55, R114). -/
def dispatch {M : Type} (t : Table M) (len : Nat) (w : Word) : Option (Entry M) :=
  t.find? fun e => Entry.matches e len w

/-- The record of a word of length class `len` (R114 to R119). -/
def decodeRecord {M : Type} (t : Table M) (len : Nat) (w : Word) : Record M :=
  match dispatch t len w with
  | none => invalidRecord
  | some e => recordOf e.mnemonic e.groups (e.slots.map fun d => build d w)

/-- `decode(window, address)` (R110). No line reads the address (R26, R121). -/
def decode {M : Type} (t : Table M) (win : List Byte) (_addr : Addr) : DecodeResult M :=
  match fetchWord win with
  | .error _ => .bufferTooShort
  | .ok (len, w) => .ok (decodeRecord t len w) len

/-- The loop of `scan` (R125) from offset `off`, where `rest` are the bytes from there on; `fuel` bounds the
iterations, and running out of it leaves the scan running. -/
def scanFrom {M : Type} (t : Table M) (base : Addr) :
    Nat → List Byte → Nat → List (ScanEntry M) → List (ScanEntry M) × ScanStatus
  | 0, _, _, out => (out, .running)
  | fuel + 1, rest, off, out =>
    if rest = [] then (out, .done)
    else match decode t rest (base + BitVec.ofNat 64 off) with
      | .bufferTooShort => (out, .stoppedShort off)
      | .ok r len => scanFrom t base fuel (rest.drop len) (off + len) (out ++ [⟨off, r, len⟩])

/-- `scan(buf, base)` (R125). Each iteration consumes at least 2 bytes (R126), so one iteration a byte and
one to leave the loop are more than enough. -/
def scan {M : Type} (t : Table M) (buf : List Byte) (base : Addr) :
    List (ScanEntry M) × ScanStatus :=
  scanFrom t base (buf.length + 1) buf 0 []

end Sys2Proof.Machine
end

