-- ==== Sys2Proof/Machine/State.lean ====
section
/-! DEFINITION. The state of a sequential scan (R125). The block itself holds none (R10): everything here is
the caller's, and it is all that goes on from one `decode` call to the next (assumption log 1). -/

namespace Sys2Proof.Machine

/-- The bytes of the buffer, keyed by their index from 0 (R35). An unlisted index has no byte: nothing is
read there, a call that needs it answers `BufferTooShort` (R42; assumption log 4). -/
abbrev Memory := List Host.Cell

/-- The canonical form: indices strictly rising, so that equal memories are equal lists. -/
abbrev Memory.wf (m : Memory) : Prop := m.Pairwise fun c d => c.1 < d.1

/-- The variables of `scan(buf, base)` (R125). -/
structure State where
  mem    : Memory                            -- `buf`
  base   : Addr                              -- `base`
  off    : Nat                               -- `off`
  out    : List (ScanEntry RefMnemonic)      -- `out`
  status : ScanStatus                        -- in the loop, or what the scan returned
  deriving DecidableEq, Repr

/-- Why the machine stops with a fault. No constructor: "No behaviour of the block is `fault` or `stuck`";
`decode` is total and every failure is a returned value (R122, R170; assumption log 11). Safe: the model
never stops. -/
inductive Fault where
  deriving DecidableEq, Repr

/-- Why the machine refuses an instruction. -/
inductive Refusal where
  /-- Raised by `exec`'s arm of an instruction that has no meaning yet. Safe; no arm raises it. -/
  | notModelled (mnemonic : String)
  deriving DecidableEq, Repr

/-- The start of a scan: `off <- 0; out <- []` (R125). No buffer is supplied yet and the base is 0: the spec
gives neither, both are the caller's choice (R202; assumption log 2). Reset itself has no effect on the
block (R200). -/
def State.reset : State :=
  { mem := [], base := 0, off := 0, out := [], status := .running }

end Sys2Proof.Machine
end

