-- ==== Sys2Proof/Machine/Ops.lean ====
section
/-! DEFINITION. The named operations: the buffer's bytes, the inputs of the next call, and the ways a call comes
back. "Trap entry" for this block is the return of the call (R179): `returnInvalid` and `returnShort` are the
two ways a failure is handed back, and going on after them is `returnInvalid`'s advance and `retryWith`. -/

namespace Sys2Proof.Machine

/-! ## The buffer -/

/-- The byte at an index, if there is one (R35). -/
def Memory.read : Memory → Nat → Option Byte
  | [], _ => none
  | (k, b) :: m, a => if k = a then some b else Memory.read m a

/-- Put a byte at an index: the caller's change of its buffer between two calls (R47). The block itself writes
no memory (R43). -/
def Memory.write : Memory → Nat → Byte → Memory
  | [], a, b => [(a, b)]
  | (k, y) :: m, a, b =>
    if k < a then (k, y) :: Memory.write m a b
    else if k = a then (a, b) :: m
    else (a, b) :: (k, y) :: m

/-- Put bytes at successive indices. -/
def Memory.writeBytes : Memory → Nat → List Byte → Memory
  | m, _, [] => m
  | m, a, b :: bs => Memory.writeBytes (Memory.write m a b) (a + 1) bs

/-- A buffer of given bytes, indexed from `a`. -/
def Memory.ofBytes : Nat → List Byte → Memory
  | _, [] => []
  | a, b :: bs => (a, b) :: Memory.ofBytes (a + 1) bs

/-- The bytes from an index on, up to the first index that has none (R35: the window is `in_avail` bytes
indexed without a gap; assumption log 4). -/
def Memory.window : Memory → Nat → List Byte
  | [], _ => []
  | (k, b) :: m, a =>
    if k < a then Memory.window m a
    else if k = a then b :: Memory.window m (a + 1)
    else []

/-- The bytes of a buffer are indexed 0, 1, 2, .. without a gap (R35). -/
def Memory.contiguous (m : Memory) : Bool := m.map Prod.fst == List.range m.length

/-! ## The inputs of the next call (R29, R125) -/

/-- `in_byte[0 ..]` of the call at `off`. -/
def State.window (s : State) : List Byte := Memory.window s.mem s.off

/-- `in_avail` of the call at `off`: `n − off` (R125). -/
def State.inAvail (s : State) : Nat := s.window.length

/-- `in_addr` of the call at `off`: `(base + off) mod 2^64` (R125, D17). No output depends on it (R26). -/
def State.inAddr (s : State) : Addr := s.base + BitVec.ofNat 64 s.off

/-! ## Returns (R120, R125, R179) -/

/-- `Ok(rec, L)`: the record joins the output and the offset advances by `L` (R125). -/
def State.returnOk (s : State) (r : Record RefMnemonic) (len : Nat) : State :=
  { s with off := s.off + len, out := s.out ++ [⟨s.off, r, len⟩] }

/-- `Ok(INVALID_RECORD, L)`: the scan resumes `L` bytes later (R118, R119, R181). -/
def State.returnInvalid (s : State) (len : Nat) : State := s.returnOk invalidRecord len

/-- `Err(BufferTooShort)`: the scan returns `StoppedShort(off)`; no record and no length (R125, R180). -/
def State.returnShort (s : State) : State := { s with status := .stoppedShort s.off }

/-- The loop ends: the scan returns `Done` (R125). -/
def State.returnDone (s : State) : State := { s with status := .done }

/-- What the scan does with the result of one call (R125). -/
def State.apply (s : State) : DecodeResult RefMnemonic → State
  | .ok r len => s.returnOk r len
  | .bufferTooShort => s.returnShort

/-- The shared end of every instruction's meaning: the record of its mnemonic, groups and operands, or the
INVALID record if an operand failed, and the advance by the row's length (R115 to R119, R125). -/
def returnRecord (m : RefMnemonic) (g : GroupSet) (built : List (Except DecodeError Operand)) (len : Nat)
    (s : State) : Host.Outcome State Fault Refusal :=
  .next (s.returnOk (recordOf (.real m) g built) len)

/-! ## The caller (R125, R181) -/

/-- The start of `scan(buf, base)` (R125). -/
def State.load (buf : List Byte) (base : Addr) : State :=
  { mem := Memory.ofBytes 0 buf, base := base, off := 0, out := [], status := .running }

/-- A retry after `StoppedShort`: a longer window at the same offset, with no memory of the failed attempt
(R181). The new bytes stand after the bytes the failed call was given. A scan that did not stop short is left
as it is. -/
def State.retryWith (s : State) (more : List Byte) : State :=
  match s.status with
  | .stoppedShort _ =>
    { s with mem := Memory.writeBytes s.mem (s.off + s.inAvail) more, status := .running }
  | .running => s
  | .done => s

end Sys2Proof.Machine
end

