-- ==== Sys2Proof/Machine/LdW.lean ====
section
/-! DEFINITION. The LD.W rows (45_ref_ld_w.md). The decoder loads nothing and adds nothing to the base; it reports
base and displacement side by side (R97). -/

namespace Sys2Proof.Machine

/-- `LD.W D[a], [A[b]+off10]` (R155). -/
def execLdWBo (a b : BitVec 4) (off10 : BitVec 10) (s : State) : Host.Outcome State Fault Refusal :=
  returnRecord .ldW noGroups
    [buildRegister .gpr a.toNat, buildMemory .addr b.toNat .signed off10.toNat 10] 4 s

/-- `LD.W D[a], [A[b]+off16]` (R156). -/
def execLdWBol (a b : BitVec 4) (off16 : BitVec 16) (s : State) : Host.Outcome State Fault Refusal :=
  returnRecord .ldW noGroups
    [buildRegister .gpr a.toNat, buildMemory .addr b.toNat .signed off16.toNat 16] 4 s

/-- `LD.W D[c], [A[b]]`: no displacement field, displacement 0 (R157, R61). -/
def execLdWSlr (c b : BitVec 4) (s : State) : Host.Outcome State Fault Refusal :=
  returnRecord .ldW noGroups [buildRegister .gpr c.toNat, buildMemory .addr b.toNat .signed 0 0] 2 s

end Sys2Proof.Machine
end

