-- ==== Sys2Proof/Machine/Mov.lean ====
section
/-! DEFINITION. The MOV rows (43_ref_mov.md): what the decoder returns for each, destination operand first. -/

namespace Sys2Proof.Machine

/-- `MOV D[a], const4` (R140). -/
def execMovSrc (a const4 : BitVec 4) (s : State) : Host.Outcome State Fault Refusal :=
  returnRecord .mov noGroups [buildRegister .gpr a.toNat, buildImmediate .signed const4.toNat 4] 2 s

/-- `MOV D[a], D[b]` (R141). -/
def execMovSrr (a b : BitVec 4) (s : State) : Host.Outcome State Fault Refusal :=
  returnRecord .mov noGroups [buildRegister .gpr a.toNat, buildRegister .gpr b.toNat] 2 s

/-- `MOV E[a], const4`; an odd `a` gives the INVALID record (R143). -/
def execMovESrc (a const4 : BitVec 4) (s : State) : Host.Outcome State Fault Refusal :=
  returnRecord .mov noGroups [buildRegister .ext a.toNat, buildImmediate .signed const4.toNat 4] 2 s

/-- `MOV D[c], const16` (R142). -/
def execMovRlc (c : BitVec 4) (const16 : BitVec 16) (s : State) : Host.Outcome State Fault Refusal :=
  returnRecord .mov noGroups [buildRegister .gpr c.toNat, buildImmediate .signed const16.toNat 16] 4 s

end Sys2Proof.Machine
end

