-- ==== Sys2Proof/Machine/Ret.lean ====
section
/-! DEFINITION. The RET rows (44_ref_ret.md). The decoder returns from nothing; it reports the mnemonic, and the
group JUMP if `RET_IS_JUMP` is true. -/

namespace Sys2Proof.Machine

/-- `RET`, 16-bit (R150). -/
def execRetSr (s : State) : Host.Outcome State Fault Refusal :=
  returnRecord .ret (retGroups Config.retIsJump) [] 2 s

/-- `RET`, 32-bit (R151). -/
def execRetSys (s : State) : Host.Outcome State Fault Refusal :=
  returnRecord .ret (retGroups Config.retIsJump) [] 4 s

end Sys2Proof.Machine
end

