-- ==== Sys2Proof/Machine/Dispatch.lean ====
section
/-! DEFINITION. One arm per instruction: each calls its meaning. -/

namespace Sys2Proof.Machine

def exec (i : Instr) (s : State) : Host.Outcome State Fault Refusal :=
  match i with
  | .movSrc a const4 => Sys2Proof.Machine.execMovSrc a const4 s
  | .movSrr a b => Sys2Proof.Machine.execMovSrr a b s
  | .movESrc a const4 => Sys2Proof.Machine.execMovESrc a const4 s
  | .retSr => Sys2Proof.Machine.execRetSr s
  | .ldWSlr c b => Sys2Proof.Machine.execLdWSlr c b s
  | .movRlc c const16 => Sys2Proof.Machine.execMovRlc c const16 s
  | .retSys => Sys2Proof.Machine.execRetSys s
  | .ldWBo a b off10 => Sys2Proof.Machine.execLdWBo a b off10 s
  | .ldWBol a b off16 => Sys2Proof.Machine.execLdWBol a b off16 s

end Sys2Proof.Machine
end

