-- ==== Sys2Proof/Machine/Step.lean ====
section
/-! DEFINITION. One step: one iteration of the scan's loop (R125), that is one `decode` call (R183) and the
advance. -/

namespace Sys2Proof.Machine

/-- One iteration of R125's loop. While bytes are left, fetch and classify (R111 to R113), dispatch (R114), run
the instruction's meaning, or hand back the INVALID record (R118) or `BufferTooShort` (R173). With no byte
left the scan returns `Done`. Once the scan has returned, nothing happens (R186; assumption log 7). -/
def step (s : State) : Host.Outcome State Fault Refusal :=
  match s.status with
  | .done => .next s
  | .stoppedShort _ => .next s
  | .running =>
    if s.inAvail = 0 then .next s.returnDone
    else match fetchWord s.window with
      | .error _ => .next s.returnShort
      | .ok (len, w) =>
        match decodeWord len w with
        | .error _ => .next (s.returnInvalid len)
        | .ok i => exec i s

/-- `s` with an instruction, numbered as spec/opcode_table.json numbers its bits, put in the buffer where `step`
fetches its next instruction, and the scan in its loop. It stands for the caller's choice of a buffer
(assumption log 3). -/
def State.withFetchWord (s : State) (nbits w : Nat) : State :=
  { s with mem := Memory.writeBytes s.mem s.off (tableWordBytes nbits w), status := .running }

end Sys2Proof.Machine
end

