-- ==== Sys2Proof/Machine/RefTable.lean ====
section
/-! DEFINITION. `REF_TABLE`: the nine entries of R64, in its order. Every number here is the spec's own general
knowledge of TriCore (93 G3 to G7; assumption log 21). -/

namespace Sys2Proof.Machine

/-- Row 1 (R140). -/
def rowMovSrc : Entry RefMnemonic :=
  { len := 2, mask := 0x00FF, pat := 0x0082, mnemonic := .real .mov, groups := noGroups
    slots := [.regOp .gpr ⟨11, 8⟩, .immOp [⟨15, 12⟩] .signed] }

/-- Row 2 (R141). -/
def rowMovSrr : Entry RefMnemonic :=
  { len := 2, mask := 0x00FF, pat := 0x0002, mnemonic := .real .mov, groups := noGroups
    slots := [.regOp .gpr ⟨11, 8⟩, .regOp .gpr ⟨15, 12⟩] }

/-- Row 3 (R143). -/
def rowMovESrc : Entry RefMnemonic :=
  { len := 2, mask := 0x00FF, pat := 0x00D2, mnemonic := .real .mov, groups := noGroups
    slots := [.regOp .ext ⟨11, 8⟩, .immOp [⟨15, 12⟩] .signed] }

/-- Row 4 (R150). -/
def rowRetSr (retIsJump : Bool) : Entry RefMnemonic :=
  { len := 2, mask := 0xF0FF, pat := 0x9000, mnemonic := .real .ret, groups := retGroups retIsJump
    slots := [] }

/-- Row 5 (R157). -/
def rowLdWSlr : Entry RefMnemonic :=
  { len := 2, mask := 0x00FF, pat := 0x0054, mnemonic := .real .ldW, groups := noGroups
    slots := [.regOp .gpr ⟨11, 8⟩, .memOp .addr ⟨15, 12⟩ [] .signed] }

/-- Row 6 (R142). -/
def rowMovRlc : Entry RefMnemonic :=
  { len := 4, mask := 0x000000FF, pat := 0x0000003B, mnemonic := .real .mov, groups := noGroups
    slots := [.regOp .gpr ⟨31, 28⟩, .immOp [⟨27, 12⟩] .signed] }

/-- Row 7 (R151). -/
def rowRetSys (retIsJump : Bool) : Entry RefMnemonic :=
  { len := 4, mask := 0x0FC000FF, pat := 0x0180000D, mnemonic := .real .ret, groups := retGroups retIsJump
    slots := [] }

/-- Row 8 (R155). -/
def rowLdWBo : Entry RefMnemonic :=
  { len := 4, mask := 0x0FC000FF, pat := 0x09000009, mnemonic := .real .ldW, groups := noGroups
    slots := [.regOp .gpr ⟨11, 8⟩, .memOp .addr ⟨15, 12⟩ [⟨31, 28⟩, ⟨21, 16⟩] .signed] }

/-- Row 9 (R156). -/
def rowLdWBol : Entry RefMnemonic :=
  { len := 4, mask := 0x000000FF, pat := 0x00000019, mnemonic := .real .ldW, groups := noGroups
    slots := [.regOp .gpr ⟨11, 8⟩, .memOp .addr ⟨15, 12⟩ [⟨27, 22⟩, ⟨31, 28⟩, ⟨21, 16⟩] .signed] }

/-- `REF_TABLE` (R64), for either value of the open parameter `RET_IS_JUMP`. -/
def refTable (retIsJump : Bool) : Table RefMnemonic :=
  [rowMovSrc, rowMovSrr, rowMovESrc, rowRetSr retIsJump, rowLdWSlr,
   rowMovRlc, rowRetSys retIsJump, rowLdWBo, rowLdWBol]

/-- The `FMT_TABLE` the machine runs: its default, `REF_TABLE` (R3; assumption log 5). -/
def fmtTable : Table RefMnemonic := refTable Config.retIsJump

end Sys2Proof.Machine
end

