-- ==== Sys2Proof/Safety.lean ====
section
/-! DEFINITION. What a valid record is (R123), and the invariant of a scan (R126). -/

namespace Sys2Proof.Machine

/-- An operand a valid record may show among its first `operand_count`: not `Invalid`, and every register it
names one that `resolve` can answer (R16, R17, R19, R123(b), (c)). -/
def Operand.valid : Operand → Bool
  | .invalid => false
  | .register id => id.resolvable
  | .immediate _ => true
  | .memory base _ => base.resolvable

/-- Clauses (a) to (e) of R123 on one record. -/
def Record.Valid {M : Type} (r : Record M) : Prop :=
  r.operandCount ≤ 8 ∧
  (∀ j < r.operandCount, (r.operands.get j).valid = true) ∧
  (∀ j, r.operandCount ≤ j → j < 8 → r.operands.get j = .invalid) ∧
  (r.mnemonic = .invalid ↔ r = invalidRecord) ∧
  r.mnemonic ≠ .ending

/-- The entries of a scan's output start at `off`, each where the one before it ended, with lengths 2 or 4
and valid records, and end at `stop` (R125, R126). -/
def tiles {M : Type} : Nat → List (ScanEntry M) → Nat → Prop
  | off, [], stop => off = stop
  | off, e :: es, stop =>
    e.off = off ∧ (e.length = 2 ∨ e.length = 4) ∧ e.record.Valid ∧ tiles (off + e.length) es stop

/-- The invariant of a scan: the buffer is indexed without a gap (R35) and in canonical form, the records tile
it from offset 0 to `off`, `off` is not past the end, `Done` means the end is reached, and `StoppedShort(k)`
means `k` is `off` with 1, 2 or 3 bytes left (R126(b), (c)). -/
def State.Inv (s : State) : Prop :=
  Memory.contiguous s.mem = true ∧
  s.off ≤ s.mem.length ∧
  tiles 0 s.out s.off ∧
  (s.status = .done → s.off = s.mem.length) ∧
  (∀ k, s.status = .stoppedShort k → k = s.off ∧ 1 ≤ s.mem.length - s.off ∧ s.mem.length - s.off ≤ 3)

end Sys2Proof.Machine
end

