-- ==== Sys2Proof/Certificates/Slice0/Obligations.lean ====
section
/-! DEFINITION. The statements for the provers. -/

open Sys2Proof Sys2Proof.Machine

/-! ## The scan as a machine -/

/-- R125 gives `off <- 0; out <- []`. The empty buffer, the base 0 and the status are the model's choice
(assumption log 2). -/
def Obligations.ResetIsTheStartOfAScan : Prop :=
  State.reset.off = 0 ∧ State.reset.out = [] ∧ State.reset.mem = [] ∧ State.reset.base = 0 ∧
  State.reset.status = .running

/-- R110, R125: when the bytes at the offset decode to an instruction, a step is that instruction. -/
def Obligations.StepRunsTheDecodedInstruction : Prop :=
  ∀ (s : State) (i : Instr) (rest : List Byte),
    s.status = .running → decodeBytes s.window = .ok (i, rest) → step s = exec i s

/-- R118, R181: an unrecognised word costs its class's length and leaves the INVALID record. -/
def Obligations.StepOnAnUnrecognisedWord : Prop :=
  ∀ (s : State) (len : Nat) (w : Word) (e : DecodeError),
    s.status = .running → fetchWord s.window = .ok (len, w) → decodeWord len w = .error e →
    step s = .next { s with off := s.off + len, out := s.out ++ [⟨s.off, invalidRecord, len⟩] }

/-- R111, R113, R125, R180: a truncated window ends the scan with `StoppedShort(off)`, no record and no
length. -/
def Obligations.StepOnATruncatedWindow : Prop :=
  ∀ s : State, s.status = .running →
    (s.inAvail = 1 ∨ ((s.inAvail = 2 ∨ s.inAvail = 3) ∧ (s.window.headD 0).getLsbD 0 = true)) →
    step s = .next { s with status := .stoppedShort s.off }

/-- R125: with no byte left the scan returns `Done`. That this is a step of its own is assumption log 8. -/
def Obligations.StepAtTheEndReturnsDone : Prop :=
  ∀ s : State, s.status = .running → s.inAvail = 0 → step s = .next { s with status := .done }

/-- Assumption log 7, the model's choice: after the scan has returned, a step changes nothing. -/
def Obligations.NothingHappensAfterTheScan : Prop :=
  ∀ s : State, (s.status = .done ∨ ∃ k, s.status = .stoppedShort k) → step s = .next s

/-- R122, R170: no input makes the block fail otherwise than by a returned value. -/
def Obligations.EveryStepAnswersANextState : Prop :=
  ∀ s : State, ∃ t, step s = .next t

/-- R43: the block writes no memory. Nor does a step touch the base or the records already returned. -/
def Obligations.NoStepWritesTheBuffer : Prop :=
  ∀ s t : State, step s = .next t →
    (∀ a, Memory.read t.mem a = Memory.read s.mem a) ∧ t.mem = s.mem ∧ t.base = s.base ∧
    ∃ more, t.out = s.out ++ more

/-- The frame of every instruction: it returns one record and nothing else of the state changes. -/
def Obligations.EveryInstructionKeepsAllButItsRecord : Prop :=
  ∀ (i : Instr) (s : State), ∃ t r, exec i s = .next t ∧
    (∀ a, Memory.read t.mem a = Memory.read s.mem a) ∧ t.mem = s.mem ∧ t.base = s.base ∧
    t.status = s.status ∧ t.off = s.off + i.length ∧ t.out = s.out ++ [⟨s.off, r, i.length⟩] ∧ r.Valid

/-- R35, R126(b), (c): the invariant of a scan is kept by every step, from every state that has it. -/
def Obligations.EveryStepKeepsTheScanConsistent : Prop :=
  ∀ s t : State, s.Inv → step s = .next t → t.Inv

/-- The state after reset has the invariant. -/
def Obligations.ResetScanIsConsistent : Prop := State.reset.Inv

/-- Every start of a scan has the invariant, whatever the buffer and base. -/
def Obligations.EveryStartOfAScanIsConsistent : Prop :=
  ∀ (buf : List Byte) (base : Addr), (State.load buf base).Inv

/-- R110, R125: a step of the machine, which dispatches to typed instructions, is one call of the table-driven
`decode` with the machine's table, for every window and address. That the machine's table is `REF_TABLE`, the
default of the open `FMT_TABLE`, is the model's choice (assumption log 5). -/
def Obligations.StepIsOneDecodeCall : Prop :=
  ∀ s : State, s.status = .running → s.inAvail ≠ 0 →
    step s = .next (s.apply (decode fmtTable s.window s.inAddr))

/-- Running the machine on a loaded buffer gives exactly R125's `scan(buf, base)`. R126(a) bounds the calls by
`⌈n/2⌉`; the one step more, in which the scan returns `Done`, is the model's choice (assumption log 8), and so is
that any further steps change nothing (assumption log 7). The machine's table is `REF_TABLE` (assumption log 5). -/
def Obligations.RunningTheMachineIsTheScan : Prop :=
  ∀ (buf : List Byte) (base : Addr) (k : Nat), (buf.length + 1) / 2 + 1 ≤ k →
    ∃ t : State, Host.Core.run Sys2Proof.core k (State.load buf base) = .next t ∧
      (t.out, t.status) = scan fmtTable buf base ∧ t.mem = Memory.ofBytes 0 buf ∧ t.base = base

/-- R126(a) to (c), for every well-formed table: the scan returns, with at most `⌈n/2⌉` records that tile the
buffer from offset 0; `Done` at the end of the buffer, `StoppedShort(off)` with 1, 2 or 3 bytes left. -/
def Obligations.EveryScanReturns : Prop :=
  ∀ (M : Type) (t : Table M) (buf : List Byte) (base : Addr), Table.wf t = true →
    (scan t buf base).1.length ≤ (buf.length + 1) / 2 ∧
    ∃ stop, tiles 0 (scan t buf base).1 stop ∧ stop ≤ buf.length ∧
      (((scan t buf base).2 = .done ∧ stop = buf.length) ∨
       ((scan t buf base).2 = .stoppedShort stop ∧ 1 ≤ buf.length - stop ∧ buf.length - stop ≤ 3))

/-- R126(a), R210: with bytes left, a step either advances by 2 or 4 and stays inside the buffer, or stops
short with at most 3 bytes left. -/
def Obligations.EveryStepMakesProgress : Prop :=
  ∀ s t : State, s.status = .running → s.inAvail ≠ 0 → step s = .next t →
    (t.status = .running ∧ (t.off = s.off + 2 ∨ t.off = s.off + 4) ∧ t.off ≤ s.off + s.inAvail ∧
      t.out.length = s.out.length + 1) ∨
    (t.status = .stoppedShort s.off ∧ t.off = s.off ∧ t.out = s.out ∧ s.inAvail ≤ 3)

/-- R125: the next call's window begins where this call's instruction ended, at the address `L` further on,
modulo 2^64. -/
def Obligations.NextCallStartsWhereThisOneEnded : Prop :=
  ∀ s t : State, Memory.wf s.mem → step s = .next t →
    s.off ≤ t.off ∧ t.window = s.window.drop (t.off - s.off) ∧
    t.inAddr = s.inAddr + BitVec.ofNat 64 (t.off - s.off)

/-- R10, R45, R47: the result of a call depends on its window alone, on nothing that earlier calls left. -/
def Obligations.EqualWindowsGiveEqualResults : Prop :=
  ∀ s s' : State, s.status = .running → s'.status = .running → s.inAvail ≠ 0 → s.window = s'.window →
    ∃ res, step s = .next (s.apply res) ∧ step s' = .next (s'.apply res)

/-- Assumption log 15, the model's choice: the caller's operation `retryWith` puts the new bytes after the old
ones and resumes the scan, its output and base kept. R181 gives only that a retry is a fresh call with a longer
window at the same offset, with no memory of the failed attempt; the scan of R125 models "abort". -/
def Obligations.RetryIsACallWithALongerWindow : Prop :=
  ∀ (s : State) (k : Nat) (more : List Byte), s.Inv → s.status = .stoppedShort k →
    (s.retryWith more).status = .running ∧ (s.retryWith more).off = s.off ∧
    (s.retryWith more).out = s.out ∧ (s.retryWith more).base = s.base ∧
    (s.retryWith more).window = s.window ++ more ∧ (s.retryWith more).Inv

/-- Assumption log 3: a word placed at the offset is the instruction the next step runs. -/
def Obligations.PlacedWordIsRunNext : Prop :=
  ∀ (s : State) (nbits w : Nat) (i : Instr), Memory.wf s.mem → decodeTableWord nbits w = some i →
    step (s.withFetchWord nbits w) = exec i (s.withFetchWord nbits w)

/-! ## The rows of `REF_TABLE`

Each statement says what `decode` returns for every word of the row, whatever follows it; that a truncated one
gives `BufferTooShort`; and that the instruction's meaning answers the next state, for every operand and state. -/

/-- R140. -/
def Obligations.MovSrcReturnsItsRecord : Prop :=
  (∀ (j : Bool) (w : BitVec 16) (rest : List Byte) (addr : Addr), w.extractLsb' 0 8 = 0x82#8 →
    decode (refTable j) (leBytes 2 w.toNat ++ rest) addr =
      .ok ⟨.real .mov, ⟨false⟩, 2, OperandSlots.ofList
        [.register (dReg (w.extractLsb' 8 4)), .immediate ((w.extractLsb' 12 4).signExtend 32)]⟩ 2) ∧
  (∀ (j : Bool) (w : BitVec 16) (n : Nat) (addr : Addr), w.extractLsb' 0 8 = 0x82#8 → n < 2 →
    decode (refTable j) ((leBytes 2 w.toNat).take n) addr = .bufferTooShort) ∧
  ∀ (a c : BitVec 4) (s : State), exec (.movSrc a c) s =
    .next { s with off := s.off + 2, out := s.out ++ [⟨s.off, ⟨.real .mov, ⟨false⟩, 2, OperandSlots.ofList
      [.register (dReg a), .immediate (c.signExtend 32)]⟩, 2⟩] }

/-- R141. -/
def Obligations.MovSrrReturnsItsRecord : Prop :=
  (∀ (j : Bool) (w : BitVec 16) (rest : List Byte) (addr : Addr), w.extractLsb' 0 8 = 0x02#8 →
    decode (refTable j) (leBytes 2 w.toNat ++ rest) addr =
      .ok ⟨.real .mov, ⟨false⟩, 2, OperandSlots.ofList
        [.register (dReg (w.extractLsb' 8 4)), .register (dReg (w.extractLsb' 12 4))]⟩ 2) ∧
  (∀ (j : Bool) (w : BitVec 16) (n : Nat) (addr : Addr), w.extractLsb' 0 8 = 0x02#8 → n < 2 →
    decode (refTable j) ((leBytes 2 w.toNat).take n) addr = .bufferTooShort) ∧
  ∀ (a b : BitVec 4) (s : State), exec (.movSrr a b) s =
    .next { s with off := s.off + 2, out := s.out ++ [⟨s.off, ⟨.real .mov, ⟨false⟩, 2, OperandSlots.ofList
      [.register (dReg a), .register (dReg b)]⟩, 2⟩] }

/-- R142. The bits `w[11:8]` are any. -/
def Obligations.MovRlcReturnsItsRecord : Prop :=
  (∀ (j : Bool) (w : BitVec 32) (rest : List Byte) (addr : Addr), w.extractLsb' 0 8 = 0x3B#8 →
    decode (refTable j) (leBytes 4 w.toNat ++ rest) addr =
      .ok ⟨.real .mov, ⟨false⟩, 2, OperandSlots.ofList
        [.register (dReg (w.extractLsb' 28 4)), .immediate ((w.extractLsb' 12 16).signExtend 32)]⟩ 4) ∧
  (∀ (j : Bool) (w : BitVec 32) (n : Nat) (addr : Addr), w.extractLsb' 0 8 = 0x3B#8 → n < 4 →
    decode (refTable j) ((leBytes 4 w.toNat).take n) addr = .bufferTooShort) ∧
  ∀ (c : BitVec 4) (k : BitVec 16) (s : State), exec (.movRlc c k) s =
    .next { s with off := s.off + 4, out := s.out ++ [⟨s.off, ⟨.real .mov, ⟨false⟩, 2, OperandSlots.ofList
      [.register (dReg c), .immediate (k.signExtend 32)]⟩, 4⟩] }

/-- R143: an even `a` gives the record, an odd one the INVALID record, never an `Err`. -/
def Obligations.MovESrcReturnsItsRecord : Prop :=
  (∀ (j : Bool) (w : BitVec 16) (rest : List Byte) (addr : Addr), w.extractLsb' 0 8 = 0xD2#8 →
    decode (refTable j) (leBytes 2 w.toNat ++ rest) addr =
      if w.getLsbD 8 then .ok invalidRecord 2
      else .ok ⟨.real .mov, ⟨false⟩, 2, OperandSlots.ofList
        [.register (eReg (w.extractLsb' 8 4)), .immediate ((w.extractLsb' 12 4).signExtend 32)]⟩ 2) ∧
  (∀ (j : Bool) (w : BitVec 16) (n : Nat) (addr : Addr), w.extractLsb' 0 8 = 0xD2#8 → n < 2 →
    decode (refTable j) ((leBytes 2 w.toNat).take n) addr = .bufferTooShort) ∧
  (∀ (a c : BitVec 4) (s : State), a.getLsbD 0 = false → exec (.movESrc a c) s =
    .next { s with off := s.off + 2, out := s.out ++ [⟨s.off, ⟨.real .mov, ⟨false⟩, 2, OperandSlots.ofList
      [.register (eReg a), .immediate (c.signExtend 32)]⟩, 2⟩] }) ∧
  ∀ (a c : BitVec 4) (s : State), a.getLsbD 0 = true → exec (.movESrc a c) s =
    .next { s with off := s.off + 2, out := s.out ++ [⟨s.off, invalidRecord, 2⟩] }

/-- R150, for either value of `RET_IS_JUMP`. The bits `w[11:8]` are any; another `op2` is no row. -/
def Obligations.RetSrReturnsItsRecord : Prop :=
  (∀ (j : Bool) (w : BitVec 16) (rest : List Byte) (addr : Addr),
    w.extractLsb' 0 8 = 0x00#8 → w.extractLsb' 12 4 = 0x9#4 →
    decode (refTable j) (leBytes 2 w.toNat ++ rest) addr =
      .ok ⟨.real .ret, ⟨j⟩, 0, OperandSlots.ofList []⟩ 2) ∧
  (∀ (j : Bool) (w : BitVec 16) (rest : List Byte) (addr : Addr),
    w.extractLsb' 0 8 = 0x00#8 → w.extractLsb' 12 4 ≠ 0x9#4 →
    decode (refTable j) (leBytes 2 w.toNat ++ rest) addr = .ok invalidRecord 2) ∧
  (∀ (j : Bool) (w : BitVec 16) (n : Nat) (addr : Addr), w.extractLsb' 0 8 = 0x00#8 → n < 2 →
    decode (refTable j) ((leBytes 2 w.toNat).take n) addr = .bufferTooShort) ∧
  ∀ s : State, exec .retSr s =
    .next { s with off := s.off + 2, out := s.out ++
      [⟨s.off, ⟨.real .ret, ⟨Config.retIsJump⟩, 0, OperandSlots.ofList []⟩, 2⟩] }

/-- R151, for either value of `RET_IS_JUMP`. The bits `w[31:28]` and `w[21:8]` are any;
another `op2` is no row. -/
def Obligations.RetSysReturnsItsRecord : Prop :=
  (∀ (j : Bool) (w : BitVec 32) (rest : List Byte) (addr : Addr),
    w.extractLsb' 0 8 = 0x0D#8 → w.extractLsb' 22 6 = 0x06#6 →
    decode (refTable j) (leBytes 4 w.toNat ++ rest) addr =
      .ok ⟨.real .ret, ⟨j⟩, 0, OperandSlots.ofList []⟩ 4) ∧
  (∀ (j : Bool) (w : BitVec 32) (rest : List Byte) (addr : Addr),
    w.extractLsb' 0 8 = 0x0D#8 → w.extractLsb' 22 6 ≠ 0x06#6 →
    decode (refTable j) (leBytes 4 w.toNat ++ rest) addr = .ok invalidRecord 4) ∧
  (∀ (j : Bool) (w : BitVec 32) (n : Nat) (addr : Addr), w.extractLsb' 0 8 = 0x0D#8 → n < 4 →
    decode (refTable j) ((leBytes 4 w.toNat).take n) addr = .bufferTooShort) ∧
  ∀ s : State, exec .retSys s =
    .next { s with off := s.off + 4, out := s.out ++
      [⟨s.off, ⟨.real .ret, ⟨Config.retIsJump⟩, 0, OperandSlots.ofList []⟩, 4⟩] }

/-- R155: `off10 = w[31:28] ++ w[21:16]`; another `op2` is no row. -/
def Obligations.LdWBoReturnsItsRecord : Prop :=
  (∀ (j : Bool) (w : BitVec 32) (rest : List Byte) (addr : Addr),
    w.extractLsb' 0 8 = 0x09#8 → w.extractLsb' 22 6 = 0x24#6 →
    decode (refTable j) (leBytes 4 w.toNat ++ rest) addr =
      .ok ⟨.real .ldW, ⟨false⟩, 2, OperandSlots.ofList
        [.register (dReg (w.extractLsb' 8 4)), .memory (aReg (w.extractLsb' 12 4))
          ((w.extractLsb' 28 4 ++ w.extractLsb' 16 6).signExtend 32)]⟩ 4) ∧
  (∀ (j : Bool) (w : BitVec 32) (rest : List Byte) (addr : Addr),
    w.extractLsb' 0 8 = 0x09#8 → w.extractLsb' 22 6 ≠ 0x24#6 →
    decode (refTable j) (leBytes 4 w.toNat ++ rest) addr = .ok invalidRecord 4) ∧
  (∀ (j : Bool) (w : BitVec 32) (n : Nat) (addr : Addr), w.extractLsb' 0 8 = 0x09#8 → n < 4 →
    decode (refTable j) ((leBytes 4 w.toNat).take n) addr = .bufferTooShort) ∧
  ∀ (a b : BitVec 4) (o : BitVec 10) (s : State), exec (.ldWBo a b o) s =
    .next { s with off := s.off + 4, out := s.out ++ [⟨s.off, ⟨.real .ldW, ⟨false⟩, 2, OperandSlots.ofList
      [.register (dReg a), .memory (aReg b) (o.signExtend 32)]⟩, 4⟩] }

/-- R156: `off16 = w[27:22] ++ w[31:28] ++ w[21:16]`. -/
def Obligations.LdWBolReturnsItsRecord : Prop :=
  (∀ (j : Bool) (w : BitVec 32) (rest : List Byte) (addr : Addr), w.extractLsb' 0 8 = 0x19#8 →
    decode (refTable j) (leBytes 4 w.toNat ++ rest) addr =
      .ok ⟨.real .ldW, ⟨false⟩, 2, OperandSlots.ofList
        [.register (dReg (w.extractLsb' 8 4)), .memory (aReg (w.extractLsb' 12 4))
          ((w.extractLsb' 22 6 ++ w.extractLsb' 28 4 ++ w.extractLsb' 16 6).signExtend 32)]⟩ 4) ∧
  (∀ (j : Bool) (w : BitVec 32) (n : Nat) (addr : Addr), w.extractLsb' 0 8 = 0x19#8 → n < 4 →
    decode (refTable j) ((leBytes 4 w.toNat).take n) addr = .bufferTooShort) ∧
  ∀ (a b : BitVec 4) (o : BitVec 16) (s : State), exec (.ldWBol a b o) s =
    .next { s with off := s.off + 4, out := s.out ++ [⟨s.off, ⟨.real .ldW, ⟨false⟩, 2, OperandSlots.ofList
      [.register (dReg a), .memory (aReg b) (o.signExtend 32)]⟩, 4⟩] }

/-- R157: the operand is a memory operand with displacement 0. -/
def Obligations.LdWSlrReturnsItsRecord : Prop :=
  (∀ (j : Bool) (w : BitVec 16) (rest : List Byte) (addr : Addr), w.extractLsb' 0 8 = 0x54#8 →
    decode (refTable j) (leBytes 2 w.toNat ++ rest) addr =
      .ok ⟨.real .ldW, ⟨false⟩, 2, OperandSlots.ofList
        [.register (dReg (w.extractLsb' 8 4)), .memory (aReg (w.extractLsb' 12 4)) 0]⟩ 2) ∧
  (∀ (j : Bool) (w : BitVec 16) (n : Nat) (addr : Addr), w.extractLsb' 0 8 = 0x54#8 → n < 2 →
    decode (refTable j) ((leBytes 2 w.toNat).take n) addr = .bufferTooShort) ∧
  ∀ (c b : BitVec 4) (s : State), exec (.ldWSlr c b) s =
    .next { s with off := s.off + 2, out := s.out ++ [⟨s.off, ⟨.real .ldW, ⟨false⟩, 2, OperandSlots.ofList
      [.register (dReg c), .memory (aReg b) 0]⟩, 2⟩] }

/-- R172, R143: under `REF_TABLE`, `UnknownRegister` arises only in MOV_E_SRC with an odd `w[11:8]`. -/
def Obligations.OnlyAnOddExtendedRegisterIsUnknown : Prop :=
  ∀ (j : Bool) (len : Nat) (w : Word) (e : Entry RefMnemonic) (d : Descriptor) (x : DecodeError),
    dispatch (refTable j) len w = some e → d ∈ e.slots → build d w = .error x →
    e = rowMovESrc ∧ w.getLsbD 8 = true ∧ x = .unknownRegister

/-- R124, R24: under `REF_TABLE` a record is in group JUMP exactly if it is a RET and `RET_IS_JUMP` is true;
the sentinels are never members. -/
def Obligations.OnlyRetCanBeAJump : Prop :=
  ∀ (j : Bool) (win : List Byte) (addr : Addr) (r : Record RefMnemonic) (len : Nat),
    decode (refTable j) win addr = .ok r len →
    (groupContains r.groups .jump = true ↔ j = true ∧ r.mnemonic = .real .ret) ∧
    groupContains r.groups .invalid = false ∧ groupContains r.groups .ending = false

/-! ## Encoding -/

/-- Decoding an encoded instruction gives it back, whatever bytes follow: every instruction, every operand. The
encoder is the model's (assumption log 9). -/
def Obligations.DecodeOfEncodeIsTheInstruction : Prop :=
  ∀ (i : Instr) (rest : List Byte), decodeBytes (encode i ++ rest) = .ok (i, rest)

/-- A word decodes to an instruction exactly if it agrees with the instruction's encoding in every bit that is
not don't-care (R55, D6). -/
def Obligations.WordsOfAnInstructionAreItsEncodingUpToDontCare : Prop :=
  ∀ (i : Instr) (w : Word), decodeWord i.length w = .ok i ↔ w &&& careMask i = encodeWord i

/-- Words of the spec's own examples (R140 to R143, R150, R151, R155 to R157), as numbers. -/
def Obligations.ExampleWordsDecode : Prop :=
  decodeTableWord 16 0x5082 = some (.movSrc 0 5) ∧ decodeTableWord 16 0x2102 = some (.movSrr 1 2) ∧
  decodeTableWord 16 0x52D2 = some (.movESrc 2 5) ∧ decodeTableWord 16 0x9000 = some .retSr ∧
  decodeTableWord 16 0x4354 = some (.ldWSlr 3 4) ∧ decodeTableWord 32 0x4800003B = some (.movRlc 4 0x8000) ∧
  decodeTableWord 32 0x0180000D = some .retSys ∧ decodeTableWord 32 0xF93C2109 = some (.ldWBo 1 2 0x3FC) ∧
  decodeTableWord 32 0x8134A519 = some (.ldWBol 5 10 0x1234) ∧ decodeTableWord 16 0x0000 = none

/-! ## Reading the window -/

/-- R38, R51: little-endian, and the length from bit 0 of the first halfword alone. -/
def Obligations.WindowIsReadLittleEndian : Prop :=
  (∀ (b0 b1 : Byte) (rest : List Byte),
    memRead (b0 :: b1 :: rest) 0 2 = some (b0.toNat + 256 * b1.toNat) ∧
    (b0.getLsbD 0 = false →
      fetchWord (b0 :: b1 :: rest) = .ok (2, BitVec.ofNat 32 (b0.toNat + 256 * b1.toNat)))) ∧
  (∀ (b0 b1 b2 b3 : Byte) (rest : List Byte),
    memRead (b0 :: b1 :: b2 :: b3 :: rest) 0 4 =
      some (b0.toNat + 2 ^ 8 * b1.toNat + 2 ^ 16 * b2.toNat + 2 ^ 24 * b3.toNat) ∧
    (b0.getLsbD 0 = true → fetchWord (b0 :: b1 :: b2 :: b3 :: rest) =
      .ok (4, BitVec.ofNat 32 (b0.toNat + 2 ^ 8 * b1.toNat + 2 ^ 16 * b2.toNat + 2 ^ 24 * b3.toNat)))) ∧
  ∀ hw0 : Nat, lenClass hw0 = if hw0.testBit 0 then 4 else 2

/-- R173, R177: the two situations of `BufferTooShort`, for every table, whether or not the opcode would have
been recognised. -/
def Obligations.BufferTooShortExactlyWhenTruncated : Prop :=
  ∀ (M : Type) (t : Table M) (win : List Byte) (addr : Addr),
    (decode t win addr = .bufferTooShort ↔
      win.length < 2 ∨ ((win.length = 2 ∨ win.length = 3) ∧ (win.headD 0).getLsbD 0 = true)) ∧
    (4 ≤ win.length → decode t win addr ≠ .bufferTooShort)

/-- R42, R121: what the result can depend on (the address is never among it), and that nothing is read past
`in_avail`: a read that would is not defined, and the call answers `BufferTooShort`. -/
def Obligations.ResultDependsOnTheInstructionBytesOnly : Prop :=
  ∀ (M : Type) (t : Table M) (addr addr' : Addr),
    (∀ win win' : List Byte, win.take 4 = win'.take 4 → decode t win addr = decode t win' addr') ∧
    (∀ (b0 b1 : Byte) (rest rest' : List Byte), b0.getLsbD 0 = false →
      decode t (b0 :: b1 :: rest) addr = decode t (b0 :: b1 :: rest') addr') ∧
    (∀ win win' : List Byte, win.length < 2 → win'.length < 2 →
      decode t win addr = decode t win' addr') ∧
    (∀ (win : List Byte) (off n : Nat), memRead win off n = none ↔ win.length < off + n) ∧
    ∀ win : List Byte, (memRead win 0 2 = none ∨
      ∃ hw0, memRead win 0 2 = some hw0 ∧ memRead win 0 (lenClass hw0) = none) →
      decode t win addr = .bufferTooShort

/-! ## Dispatch and the record, for any table -/

/-- R55: the first match in list order; and two words that agree on the mask and on every piece a slot reads give
the same match and the same operands. -/
def Obligations.FirstMatchingEntryIsSelected : Prop :=
  ∀ (M : Type) (t : Table M) (len : Nat) (w : Word),
    (∀ e, dispatch t len w = some e ↔
      ∃ before after, t = before ++ e :: after ∧ (e.len = len ∧ w &&& e.mask = e.pat) ∧
        ∀ f ∈ before, ¬ (f.len = len ∧ w &&& f.mask = f.pat)) ∧
    (dispatch t len w = none ↔ ∀ e ∈ t, ¬ (e.len = len ∧ w &&& e.mask = e.pat)) ∧
    ∀ (e : Entry M) (w' : Word), w &&& e.mask = w' &&& e.mask →
      (∀ d ∈ e.slots, ∀ p ∈ d.pieces, extract w p = extract w' p) →
      Entry.matches e len w = Entry.matches e len w' ∧
      e.slots.map (fun d => build d w) = e.slots.map fun d => build d w'

/-- R115, R117, R30: the record of a matched entry whose slots all resolve. -/
def Obligations.MatchedEntryGivesItsRecord : Prop :=
  ∀ (M : Type) (t : Table M) (win : List Byte) (addr : Addr) (len : Nat) (w : Word) (e : Entry M),
    fetchWord win = .ok (len, w) → dispatch t len w = some e → e.slots.length ≤ 8 →
    (∀ d ∈ e.slots, ∃ op, build d w = .ok op) →
    ∃ r, decode t win addr = .ok r len ∧ r.mnemonic = e.mnemonic ∧ r.groups = e.groups ∧
      r.operandCount = e.slots.length ∧
      (∀ (j : Nat) (h : j < e.slots.length), build e.slots[j] w = .ok (r.operands.get j)) ∧
      ∀ j, e.slots.length ≤ j → j < 8 → r.operands.get j = .invalid

/-- R118: the INVALID record in full, with the classified length. -/
def Obligations.UnrecognisedWordGivesTheInvalidRecord : Prop :=
  ∀ (M : Type) (t : Table M) (win : List Byte) (addr : Addr) (len : Nat) (w : Word),
    fetchWord win = .ok (len, w) → (∀ e ∈ t, ¬ (e.len = len ∧ w &&& e.mask = e.pat)) →
    decode t win addr = .ok ⟨.invalid, ⟨false⟩, 0, ⟨.invalid, .invalid, .invalid, .invalid,
      .invalid, .invalid, .invalid, .invalid⟩⟩ len ∧
    len = if (win.headD 0).getLsbD 0 then 4 else 2

/-- R119: one slot that names no register gives the INVALID record, whatever later entries say. -/
def Obligations.UnknownRegisterGivesTheInvalidRecord : Prop :=
  ∀ (M : Type) (t : Table M) (win : List Byte) (addr : Addr) (len : Nat) (w : Word) (e : Entry M)
    (d : Descriptor),
    fetchWord win = .ok (len, w) → dispatch t len w = some e → d ∈ e.slots →
    build d w = .error .unknownRegister → decode t win addr = .ok invalidRecord len

/-- R71: the all-zero halfword is unrecognised under every well-formed table. -/
def Obligations.AllZeroHalfwordIsInvalid : Prop :=
  ∀ (M : Type) (t : Table M) (rest : List Byte) (addr : Addr), Table.wf t = true →
    decode t (0#8 :: 0#8 :: rest) addr = .ok invalidRecord 2

/-- R123, clauses (a) to (g), for every well-formed table and every window. -/
def Obligations.EveryReturnedRecordIsValid : Prop :=
  ∀ (M : Type) (t : Table M) (win : List Byte) (addr : Addr) (r : Record M) (len : Nat),
    Table.wf t = true → decode t win addr = .ok r len →
    r.Valid ∧ (r.mnemonic = .invalid → r.operandCount = 0 ∧ r.groups = ⟨false⟩) ∧
    (len = if (win.headD 0).getLsbD 0 then 4 else 2) ∧ 2 ≤ len ∧
    (r.mnemonic ≠ .invalid → ∃ w, fetchWord win = .ok (len, w) ∧ ∃ e ∈ t,
      e.len = len ∧ w &&& e.mask = e.pat ∧ r.mnemonic = e.mnemonic ∧ r.groups = e.groups ∧
      r.operandCount = e.slots.length)

/-- R120: the shapes of the result. -/
def Obligations.ResultHasOneOfThreeShapes : Prop :=
  ∀ (M : Type) (t : Table M) (win : List Byte) (addr : Addr),
    decode t win addr = .bufferTooShort ∨
    ∃ len, (len = 2 ∨ len = 4) ∧ len ≤ win.length ∧
      (decode t win addr = .ok invalidRecord len ∨
       ∃ e ∈ t, ∃ w ops, fetchWord win = .ok (len, w) ∧ e.len = len ∧ w &&& e.mask = e.pat ∧
        e.slots.map (fun d => build d w) = ops.map .ok ∧
        decode t win addr = .ok ⟨e.mnemonic, e.groups, ops.length, OperandSlots.ofList ops⟩ len)

/-- R56, R65 (law L9): the order of an unambiguous table does not matter. In an unambiguous table the entries at
different places are told apart, equal entries too (assumption log 13). -/
def Obligations.OrderOfAnUnambiguousTableIsIrrelevant : Prop :=
  ∀ (M : Type) (t t' : Table M) (win : List Byte) (addr : Addr),
    Table.unambiguous t = true → t.Perm t' → decode t win addr = decode t' win addr

/-- R56: each name W1 to W6, W8, W9, W11 is among an entry's defects exactly if the entry breaks that condition,
in the order of the rule's table and at most once; an ill-formed table is refused with the defects of its entries;
W10, where "different entries" are entries at different places (assumption log 13); and W7's 4 bits for
`REF_TABLE` (that a register field is one piece is built into `Descriptor`). -/
def Obligations.WellFormedTablesAreThoseOfTheConditions : Prop :=
  (∀ (M : Type) (e : Entry M),
    (.w1 ∈ e.defects ↔ ¬ (e.len = 2 ∨ e.len = 4)) ∧
    (.w2 ∈ e.defects ↔
      ¬ (e.mask.toNat < 2 ^ (8 * e.len) ∧ e.pat.toNat < 2 ^ (8 * e.len) ∧ e.pat &&& ~~~e.mask = 0)) ∧
    (.w3 ∈ e.defects ↔ ¬ (e.mask.getLsbD 0 = true ∧ (e.pat.getLsbD 0 = true ↔ e.len = 4))) ∧
    (.w4 ∈ e.defects ↔ e.mnemonic = .invalid ∨ e.mnemonic = .ending) ∧
    (.w5 ∈ e.defects ↔ 8 < e.slots.length) ∧
    (.w6 ∈ e.defects ↔ ¬ ∀ d ∈ e.slots, ∀ p ∈ d.pieces, p.lo ≤ p.hi ∧ p.hi < 8 * e.len) ∧
    (.w8 ∈ e.defects ↔ ¬ ∀ ps x, .immOp ps x ∈ e.slots → ps ≠ [] ∧ 1 ≤ totalWidth ps ∧
      totalWidth ps ≤ if x = .signed then 32 else 31) ∧
    (.w9 ∈ e.defects ↔ ¬ ∀ c f ps x, .memOp c f ps x ∈ e.slots → ps ≠ [] → 1 ≤ totalWidth ps ∧
      totalWidth ps ≤ if x = .signed then 32 else 31) ∧
    (.w11 ∈ e.defects ↔ e.len = 2 ∧ e.pat = 0) ∧
    e.defects.Sublist [.w1, .w2, .w3, .w4, .w5, .w6, .w8, .w9, .w11]) ∧
  (∀ (M : Type) (t : Table M), (Table.wf t = true ↔ ∀ e ∈ t, e.defects = []) ∧
    (Table.wf t = true → Table.configure t = .ok t) ∧
    (Table.wf t = false → ∃ ds, ds ≠ [] ∧ ds = t.flatMap Entry.defects ∧ Table.configure t = .error ds)) ∧
  (∀ (M : Type) (t : Table M), Table.unambiguous t = true ↔
    t.Pairwise fun e f => e.len = f.len →
      ∃ i, e.mask.getLsbD i = true ∧ f.mask.getLsbD i = true ∧ e.pat.getLsbD i ≠ f.pat.getLsbD i) ∧
  ∀ j, ∀ e ∈ refTable j, e.regFields4 = true

/-- R65: `REF_TABLE` is well-formed and unambiguous, for either value of `RET_IS_JUMP`. -/
def Obligations.RefTableIsWellFormedAndUnambiguous : Prop :=
  ∀ j, Table.wf (refTable j) = true ∧ Table.unambiguous (refTable j) = true

/-! ## The Register Catalog -/

/-- R22: the numeric IDs, in the table's order and in closed form, dense between the sentinels. -/
def Obligations.RegisterIdsAreDense : Prop :=
  ([.d0, .d1, .d2, .d3, .d4, .d5, .d6, .d7, .d8, .d9, .d10, .d11, .d12, .d13, .d14, .d15,
    .a0, .a1, .a2, .a3, .a4, .a5, .a6, .a7, .a8, .a9, .a10, .a11, .a12, .a13, .a14, .a15,
    .e0, .e2, .e4, .e6, .e8, .e10, .e12, .e14, .psw, .pcxi, .pc, .fcx] : List RegisterId).map RegisterId.id =
      List.range' 1 44 ∧
  (∀ n : BitVec 4, (dReg n).id = 1 + n.toNat ∧ (aReg n).id = 17 + n.toNat ∧
    (n.toNat % 2 = 0 → (eReg n).id = 33 + n.toNat / 2)) ∧
  (∀ r : RegisterId, 1 ≤ r.id ∧ r.id < registerEnding ∧ RegisterId.ofId r.id = some r) ∧
  registerEnding = 45 ∧ RegisterId.ofId 0 = none ∧ ∀ n, 45 ≤ n → RegisterId.ofId n = none

/-- R81, R82, R83: what each class resolves, for every raw value; the IDs are those of R22. -/
def Obligations.ResolveNamesTheRegisterOfItsClass : Prop :=
  (∀ n, n ≤ 15 → ∃ r, resolve .gpr n = .ok r ∧ r.id = 1 + n) ∧
  (∀ n, 16 ≤ n → resolve .gpr n = .error .unknownRegister) ∧
  (∀ n, n ≤ 15 → ∃ r, resolve .addr n = .ok r ∧ r.id = 17 + n) ∧
  (∀ n, 16 ≤ n → resolve .addr n = .error .unknownRegister) ∧
  (∀ n, n ≤ 14 → n % 2 = 0 → ∃ r, resolve .ext n = .ok r ∧ r.id = 33 + n / 2) ∧
  ∀ n, (n % 2 = 1 ∨ 16 ≤ n) → resolve .ext n = .error .unknownRegister

/-- R84, R27: `resolve` never answers a sentinel or a control register, and fails only one way. -/
def Obligations.ResolveNeverAnswersAControlRegister : Prop :=
  ∀ (cls : RegClass) (raw : Nat),
    (∀ r, resolve cls raw = .ok r → r ≠ .psw ∧ r ≠ .pcxi ∧ r ≠ .pc ∧ r ≠ .fcx ∧ 1 ≤ r.id ∧ r.id ≤ 40) ∧
    ∀ e, resolve cls raw = .error e → e = .unknownRegister

/-- R23, R24, and the decisions D11 to D14: the numbers of a bit-level rendering. -/
def Obligations.NumericCodesAreTheSpecs : Prop :=
  mnemonicId refMnemonics refMnemonicId .invalid = 0 ∧
  mnemonicId refMnemonics refMnemonicId (.real .ldW) = 1 ∧
  mnemonicId refMnemonics refMnemonicId (.real .mov) = 2 ∧
  mnemonicId refMnemonics refMnemonicId (.real .ret) = 3 ∧
  mnemonicId refMnemonics refMnemonicId .ending = 4 ∧ validNumbering refMnemonics refMnemonicId = true ∧
  groupId .invalid = 0 ∧ groupId .jump = 1 ∧ groupId .ending = 2 ∧
  Operand.invalid.tag = 0 ∧ (∀ r, (Operand.register r).tag = 1) ∧ (∀ v, (Operand.immediate v).tag = 2) ∧
  (∀ b d, (Operand.memory b d).tag = 3) ∧
  (∀ (r : Record RefMnemonic) (len : Nat), (DecodeResult.ok r len).statusCode = 0) ∧
  (DecodeResult.bufferTooShort : DecodeResult RefMnemonic).statusCode = 1

/-! ## The Operand Builder -/

/-- R90: `extract` is the unsigned value of the named bits and of no other. -/
def Obligations.ExtractIsTheBitField : Prop :=
  ∀ (w : Word) (hi lo : Nat), lo ≤ hi → hi < 32 →
    extract w ⟨hi, lo⟩ = (w.toNat >>> lo) % 2 ^ (hi - lo + 1) ∧
    ∀ i, (extract w ⟨hi, lo⟩).testBit i = (decide (i ≤ hi - lo) && w.getLsbD (lo + i))

/-- R91, R58: pieces are concatenated, the first most significant; the empty list gives `(0, 0)`. -/
def Obligations.GatherConcatenatesThePieces : Prop :=
  ∀ w : Word, gather w [] = (0, 0) ∧
    (∀ ps p, gather w (ps ++ [p]) =
      ((gather w ps).1 * 2 ^ p.width + extract w p, (gather w ps).2 + p.width)) ∧
    (∀ p ps, gather w (p :: ps) =
      (extract w p * 2 ^ (gather w ps).2 + (gather w ps).1, p.width + (gather w ps).2)) ∧
    ∀ ps, (gather w ps).2 = totalWidth ps ∧ (gather w ps).1 < 2 ^ totalWidth ps

/-- R92: the integer, its range, the 32 bits, and the identity at `N = 32`. -/
def Obligations.SignExtensionIsExact : Prop :=
  ∀ n r : Nat, 1 ≤ n → n ≤ 32 → r < 2 ^ n →
    (sext n r).toInt = (if r < 2 ^ (n - 1) then (r : Int) else (r : Int) - 2 ^ n) ∧
    -(2 ^ (n - 1) : Int) ≤ (sext n r).toInt ∧ (sext n r).toInt ≤ 2 ^ (n - 1) - 1 ∧
    (∀ i < 32, (sext n r).getLsbD i = if i < n then r.testBit i else r.testBit (n - 1)) ∧
    (n = 32 → (sext n r).toNat = r)

/-- R93: the integer itself, never negative, bits 31..N zero. -/
def Obligations.ZeroExtensionIsExact : Prop :=
  ∀ n r : Nat, 1 ≤ n → n ≤ 31 → r < 2 ^ n →
    (zext r).toInt = (r : Int) ∧ (zext r).toInt ≤ 2 ^ n - 1 ∧ 0 ≤ (zext r).toInt ∧
    ∀ i < 32, (zext r).getLsbD i = (decide (i < n) && r.testBit i)

/-- R96 to R99, R94: what `build` returns for each of the three shapes, and that a failure passes through. -/
def Obligations.BuildReturnsTheOperandOfItsShape : Prop :=
  ∀ (w : Word) (cls : RegClass) (f : Piece) (ps : List Piece),
    (∀ r, resolve cls (extract w f) = .ok r →
      build (.regOp cls f) w = .ok (.register r) ∧
      build (.memOp cls f [] .signed) w = .ok (.memory r 0) ∧
      build (.memOp cls f [] .unsigned) w = .ok (.memory r 0) ∧
      (ps ≠ [] →
        build (.memOp cls f ps .signed) w = .ok (.memory r (sext (gather w ps).2 (gather w ps).1)) ∧
        build (.memOp cls f ps .unsigned) w = .ok (.memory r (zext (gather w ps).1)))) ∧
    (resolve cls (extract w f) = .error .unknownRegister →
      build (.regOp cls f) w = .error .unknownRegister ∧
      ∀ x, build (.memOp cls f ps x) w = .error .unknownRegister) ∧
    (ps ≠ [] →
      build (.immOp ps .signed) w = .ok (.immediate (sext (gather w ps).2 (gather w ps).1)) ∧
      build (.immOp ps .unsigned) w = .ok (.immediate (zext (gather w ps).1)))

/-- R95, R98, R123(c): `build` never answers the variant `Invalid` or a register `resolve` cannot answer, and
fails only with `UnknownRegister`, only on a register or memory shape. -/
def Obligations.BuildNeverAnswersInvalid : Prop :=
  ∀ (d : Descriptor) (w : Word),
    (∀ op, build d w = .ok op → op.valid = true) ∧
    ∀ e, build d w = .error e → e = .unknownRegister ∧ ∀ ps x, d ≠ .immOp ps x
end

