-- ==== Sys2Proof/Laws/Decode.lean ====
section
/-! SUPPORT. What reading the window answers. -/

namespace Sys2Proof

@[simp] theorem leBytes_length (n v : Nat) : (leBytes n v).length = n := by
  induction n generalizing v with
  | zero => rfl
  | succ n ih => simp [leBytes, ih]

theorem encode_length (i : Instr) : (encode i).length = i.length := leBytes_length _ _

theorem Instr.length_eq (i : Instr) : i.length = 2 ∨ i.length = 4 := by
  cases i <;> simp [Instr.length]

theorem leValue_lt (bs : List Byte) : leValue bs < 256 ^ bs.length := by
  induction bs with
  | nil => simp [leValue]
  | cons b bs ih =>
    have := b.isLt
    simp only [leValue, List.length_cons, Nat.pow_succ]
    omega

theorem leValue_leBytes (n v : Nat) : leValue (leBytes n v) = v % 256 ^ n := by
  induction n generalizing v with
  | zero => simp [leBytes, leValue, Nat.mod_one]
  | succ n ih =>
    have h8 : (BitVec.ofNat 8 v).toNat = v % 256 := BitVec.toNat_ofNat v 8
    simp only [leBytes, leValue, ih, h8]
    rw [Nat.pow_succ, Nat.mul_comm (256 ^ n) 256, Nat.mod_mul]

theorem leBytes_take {n m : Nat} (v : Nat) (h : n ≤ m) : (leBytes m v).take n = leBytes n v := by
  induction n generalizing m v with
  | zero => simp [leBytes]
  | succ n ih =>
    cases m with
    | zero => omega
    | succ m => simp only [leBytes, List.take_succ_cons]; rw [ih]; omega

/-- The bits of a placed field. -/
theorem place_bit {n : Nat} (v : BitVec n) (lo : Nat) {i : Nat} (hi : i < 32) :
    (place v lo).getLsbD i = (decide (lo ≤ i) && v.getLsbD (i - lo)) := by
  rw [place, BitVec.getLsbD_shiftLeft, BitVec.getLsbD_setWidth]
  by_cases h : lo ≤ i
  · simp only [hi, decide_true, Bool.true_and, show ¬ i < lo by omega, decide_false, Bool.not_false,
      show i - lo < 32 by omega, h]
  · simp [h, show i < lo by omega]

/-- Everything `fetchWord` can answer: no word and `BufferTooShort`, a halfword, or a full word (R41, R111 to
R113). -/
theorem fetchWord_cases (win : List Byte) :
    (win.length < 2 ∧ fetchWord win = .error .bufferTooShort) ∨
    (2 ≤ win.length ∧ leValue (win.take 2) % 2 = 1 ∧ win.length < 4 ∧
      fetchWord win = .error .bufferTooShort) ∨
    (4 ≤ win.length ∧ leValue (win.take 2) % 2 = 1 ∧
      fetchWord win = .ok (4, BitVec.ofNat 32 (leValue (win.take 4)))) ∨
    (2 ≤ win.length ∧ leValue (win.take 2) % 2 = 0 ∧
      fetchWord win = .ok (2, BitVec.ofNat 32 (leValue (win.take 2)))) := by
  by_cases h2 : win.length < 2
  · exact .inl ⟨h2, by simp [fetchWord, memRead, show ¬ 2 ≤ win.length by omega]⟩
  · have h2' : 2 ≤ win.length := by omega
    rcases Nat.mod_two_eq_zero_or_one (leValue (win.take 2)) with h | h
    · exact .inr (.inr (.inr ⟨h2', h, by simp [fetchWord, memRead, lenClass, h2', h]⟩))
    · by_cases h4 : win.length < 4
      · exact .inr (.inl ⟨h2', h, h4, by
          simp [fetchWord, memRead, lenClass, h2', h, show ¬ 4 ≤ win.length by omega]⟩)
      · have h4' : 4 ≤ win.length := by omega
        exact .inr (.inr (.inl ⟨h4', h, by simp [fetchWord, memRead, lenClass, h2', h, h4']⟩))

/-- A fetched length is 2 or 4 and inside the window. -/
theorem fetchWord_length {win : List Byte} {len : Nat} {w : Word} (h : fetchWord win = .ok (len, w)) :
    (len = 2 ∨ len = 4) ∧ len ≤ win.length := by
  rcases fetchWord_cases win with ⟨_, e⟩ | ⟨_, _, _, e⟩ | ⟨hl, _, e⟩ | ⟨hl, _, e⟩ <;> rw [e] at h <;> cases h
  · exact ⟨.inr rfl, hl⟩
  · exact ⟨.inl rfl, hl⟩

/-- The only failure of a fetch is `BufferTooShort`. -/
theorem fetchWord_error {win : List Byte} {e : DecodeError} (h : fetchWord win = .error e) :
    e = .bufferTooShort := by
  rcases fetchWord_cases win with ⟨_, r⟩ | ⟨_, _, _, r⟩ | ⟨_, _, r⟩ | ⟨_, _, r⟩ <;> rw [r] at h <;> cases h <;> rfl

/-- A decoded instruction has the length of its class. -/
theorem decodeWord_length {len : Nat} {w : Word} {i : Instr} (hl : len = 2 ∨ len = 4)
    (h : decodeWord len w = .ok i) : i.length = len := by
  rcases hl with rfl | rfl
  · simp only [decodeWord, decode16] at h
    repeat' split at h
    all_goals first | cases h; rfl | simp_all
  · simp only [decodeWord, decode32] at h
    repeat' split at h
    all_goals first | cases h; rfl | simp_all

end Sys2Proof
end

