-- ==== Sys2Proof/Laws/State.lean ====
section
/-! SUPPORT. What each update of the state does to each field. -/

namespace Sys2Proof.Machine

variable (s : State) (r : Record RefMnemonic) (len nbits w : Nat)

@[simp] theorem returnOk_mem : (s.returnOk r len).mem = s.mem := rfl
@[simp] theorem returnOk_base : (s.returnOk r len).base = s.base := rfl
@[simp] theorem returnOk_off : (s.returnOk r len).off = s.off + len := rfl
@[simp] theorem returnOk_out : (s.returnOk r len).out = s.out ++ [⟨s.off, r, len⟩] := rfl
@[simp] theorem returnOk_status : (s.returnOk r len).status = s.status := rfl

@[simp] theorem returnInvalid_eq : s.returnInvalid len = s.returnOk invalidRecord len := rfl

@[simp] theorem returnShort_mem : s.returnShort.mem = s.mem := rfl
@[simp] theorem returnShort_base : s.returnShort.base = s.base := rfl
@[simp] theorem returnShort_off : s.returnShort.off = s.off := rfl
@[simp] theorem returnShort_out : s.returnShort.out = s.out := rfl
@[simp] theorem returnShort_status : s.returnShort.status = .stoppedShort s.off := rfl

@[simp] theorem returnDone_mem : s.returnDone.mem = s.mem := rfl
@[simp] theorem returnDone_base : s.returnDone.base = s.base := rfl
@[simp] theorem returnDone_off : s.returnDone.off = s.off := rfl
@[simp] theorem returnDone_out : s.returnDone.out = s.out := rfl
@[simp] theorem returnDone_status : s.returnDone.status = .done := rfl

@[simp] theorem apply_ok : s.apply (.ok r len) = s.returnOk r len := rfl
@[simp] theorem apply_bufferTooShort : s.apply .bufferTooShort = s.returnShort := rfl

@[simp] theorem withFetchWord_mem :
    (s.withFetchWord nbits w).mem = Memory.writeBytes s.mem s.off (tableWordBytes nbits w) := rfl
@[simp] theorem withFetchWord_base : (s.withFetchWord nbits w).base = s.base := rfl
@[simp] theorem withFetchWord_off : (s.withFetchWord nbits w).off = s.off := rfl
@[simp] theorem withFetchWord_out : (s.withFetchWord nbits w).out = s.out := rfl
@[simp] theorem withFetchWord_status : (s.withFetchWord nbits w).status = .running := rfl

variable (buf : List Byte) (base : Addr)

@[simp] theorem load_mem : (State.load buf base).mem = Memory.ofBytes 0 buf := rfl
@[simp] theorem load_base : (State.load buf base).base = base := rfl
@[simp] theorem load_off : (State.load buf base).off = 0 := rfl
@[simp] theorem load_out : (State.load buf base).out = [] := rfl
@[simp] theorem load_status : (State.load buf base).status = .running := rfl

end Sys2Proof.Machine
end

