-- ==== Sys2Proof/Laws/Memory.lean ====
section
/-! SUPPORT. The buffer: every memory operation keeps the canonical form, and what a window is. -/

namespace Sys2Proof.Machine

theorem wf_cons {c : Host.Cell} {m : Memory} :
    Memory.wf (c :: m) ↔ (∀ d ∈ m, c.1 < d.1) ∧ Memory.wf m := List.pairwise_cons

/-- An index a write leaves listed was listed, or is the one written. -/
theorem mem_write {m : Memory} {a : Nat} {b : Byte} {c : Host.Cell} (h : c ∈ Memory.write m a b) :
    c ∈ m ∨ c = (a, b) := by
  induction m with
  | nil => simp_all [Memory.write]
  | cons d m ih =>
    obtain ⟨k, y⟩ := d
    simp only [Memory.write] at h
    split at h
    · rcases List.mem_cons.1 h with rfl | h
      · simp
      · rcases ih h with h | h <;> simp [h]
    · split at h <;> simp only [List.mem_cons] at h ⊢ <;> tauto

theorem write_wf {m : Memory} (h : Memory.wf m) (a : Nat) (b : Byte) : Memory.wf (Memory.write m a b) := by
  induction m with
  | nil => simp [Memory.write, Memory.wf]
  | cons d m ih =>
    obtain ⟨k, y⟩ := d
    obtain ⟨hk, hm⟩ := wf_cons.1 h
    simp only [Memory.write]
    split
    · refine wf_cons.2 ⟨fun c hc => ?_, ih hm⟩
      rcases mem_write hc with hc | rfl
      · exact hk c hc
      · assumption
    · split
      · subst k; exact wf_cons.2 ⟨hk, hm⟩
      · refine wf_cons.2 ⟨fun c hc => ?_, h⟩
        rcases List.mem_cons.1 hc with rfl | hc
        · show a < k; omega
        · have : k < c.1 := hk c hc
          show a < c.1; omega

theorem writeBytes_wf {m : Memory} (h : Memory.wf m) (a : Nat) (bs : List Byte) :
    Memory.wf (Memory.writeBytes m a bs) := by
  induction bs generalizing m a with
  | nil => exact h
  | cons b bs ih => exact ih (write_wf h a b) _

theorem ofBytes_index {a : Nat} {bs : List Byte} {c : Host.Cell} (h : c ∈ Memory.ofBytes a bs) :
    a ≤ c.1 := by
  induction bs generalizing a with
  | nil => simp [Memory.ofBytes] at h
  | cons b bs ih =>
    rcases List.mem_cons.1 h with rfl | h
    · exact Nat.le_refl _
    · have := ih h; omega

theorem ofBytes_wf (a : Nat) (bs : List Byte) : Memory.wf (Memory.ofBytes a bs) := by
  induction bs generalizing a with
  | nil => simp [Memory.ofBytes, Memory.wf]
  | cons b bs ih => exact wf_cons.2 ⟨fun c hc => ofBytes_index hc, ih _⟩

theorem reset_wf : Memory.wf State.reset.mem := by decide

theorem load_wf (buf : List Byte) (base : Addr) : Memory.wf (State.load buf base).mem := ofBytes_wf 0 buf

theorem withFetchWord_wf {s : State} (h : Memory.wf s.mem) (nbits w : Nat) :
    Memory.wf (s.withFetchWord nbits w).mem := writeBytes_wf h _ _

theorem retryWith_wf {s : State} (h : Memory.wf s.mem) (more : List Byte) :
    Memory.wf (s.retryWith more).mem := by
  unfold State.retryWith
  split
  · exact writeBytes_wf h _ _
  · exact h
  · exact h

/-- A buffer without gaps is the buffer of its own bytes. -/
theorem contiguous_iff {m : Memory} : Memory.contiguous m = true ↔ m = Memory.ofBytes 0 (m.map Prod.snd) := by
  have key : ∀ (m : Memory) (a : Nat),
      m.map Prod.fst = List.range' a m.length ↔ m = Memory.ofBytes a (m.map Prod.snd) := by
    intro m
    induction m with
    | nil => simp [Memory.ofBytes]
    | cons c m ih =>
      intro a
      obtain ⟨k, b⟩ := c
      simp only [List.map_cons, List.length_cons, List.range'_succ, List.cons.injEq, Memory.ofBytes, ih,
        Prod.mk.injEq, and_true]
  rw [← key, Memory.contiguous, beq_iff_eq, List.range_eq_range']

theorem contiguous_wf {m : Memory} (h : Memory.contiguous m = true) : Memory.wf m := by
  rw [contiguous_iff] at h
  rw [h]
  exact ofBytes_wf _ _

@[simp] theorem ofBytes_length (a : Nat) (bs : List Byte) : (Memory.ofBytes a bs).length = bs.length := by
  induction bs generalizing a with
  | nil => rfl
  | cons b bs ih => simp [Memory.ofBytes, ih]

@[simp] theorem ofBytes_bytes (a : Nat) (bs : List Byte) : (Memory.ofBytes a bs).map Prod.snd = bs := by
  induction bs generalizing a with
  | nil => rfl
  | cons b bs ih => simp [Memory.ofBytes, ih]

theorem ofBytes_contiguous (bs : List Byte) : Memory.contiguous (Memory.ofBytes 0 bs) = true := by
  rw [contiguous_iff, ofBytes_bytes]

/-- The window of a buffer of given bytes is the bytes from the offset on. -/
theorem ofBytes_window (a k : Nat) (bs : List Byte) :
    Memory.window (Memory.ofBytes a bs) (a + k) = bs.drop k := by
  induction bs generalizing a k with
  | nil => simp [Memory.ofBytes, Memory.window]
  | cons b bs ih =>
    simp only [Memory.ofBytes, Memory.window]
    cases k with
    | zero => simpa using ih (a + 1) 0
    | succ k =>
      have := ih (a + 1) k
      rw [show a + 1 + k = a + (k + 1) by omega] at this
      simp [this]

/-- A window further on is the rest of the window, as long as the window reaches that far. -/
theorem window_drop {m : Memory} (h : Memory.wf m) {a k : Nat} (hk : k ≤ (Memory.window m a).length) :
    Memory.window m (a + k) = (Memory.window m a).drop k := by
  induction m generalizing a k with
  | nil => simp [Memory.window]
  | cons c m ih =>
    obtain ⟨x, b⟩ := c
    obtain ⟨h1, h2⟩ := wf_cons.1 h
    simp only [Memory.window] at hk ⊢
    by_cases e1 : x < a
    · simp only [e1, if_true] at hk
      simp [e1, show x < a + k by omega, ih h2 hk]
    · by_cases e2 : x = a
      · subst e2
        cases k with
        | zero => simp
        | succ k =>
          simp only [Nat.lt_irrefl, if_false, if_true, List.length_cons, Nat.add_le_add_iff_right] at hk
          simp only [show x < x + (k + 1) by omega, Nat.lt_irrefl, if_true, if_false, List.drop_succ_cons]
          rw [← ih h2 hk]
          congr 1
          omega
      · simp only [e1, e2, if_false, List.length_nil] at hk
        obtain rfl : k = 0 := by omega
        simp [e1, e2]

/-- The window at an index just written begins with the byte written. -/
theorem write_window {m : Memory} (h : Memory.wf m) (a : Nat) (b : Byte) :
    Memory.window (Memory.write m a b) a = b :: Memory.window m (a + 1) := by
  induction m with
  | nil => simp [Memory.write, Memory.window]
  | cons c m ih =>
    obtain ⟨x, y⟩ := c
    obtain ⟨_, h2⟩ := wf_cons.1 h
    simp only [Memory.write]
    split
    · simp only [Memory.window]
      rw [if_pos ‹_›, if_pos (by omega), ih h2]
    · split
      · subst x; simp [Memory.window]
      · simp [Memory.window]

theorem contiguous_window {m : Memory} (h : Memory.contiguous m = true) (k : Nat) :
    Memory.window m k = (m.map Prod.snd).drop k := by
  have := ofBytes_window 0 k (m.map Prod.snd)
  rwa [← contiguous_iff.1 h, Nat.zero_add] at this

/-- In a buffer without gaps, `in_avail = n − off` (R125). -/
theorem contiguous_inAvail {s : State} (h : Memory.contiguous s.mem = true) :
    s.inAvail = s.mem.length - s.off := by
  simp [State.inAvail, State.window, contiguous_window h]

theorem read_write_same (m : Memory) (a : Nat) (b : Byte) : Memory.read (Memory.write m a b) a = some b := by
  induction m with
  | nil => simp [Memory.write, Memory.read]
  | cons c m ih =>
    obtain ⟨k, y⟩ := c
    simp only [Memory.write]
    split
    · rw [Memory.read, if_neg (by omega), ih]
    · split <;> simp [Memory.read]

theorem read_write_other (m : Memory) {a a' : Nat} (b : Byte) (h : a' ≠ a) :
    Memory.read (Memory.write m a b) a' = Memory.read m a' := by
  induction m with
  | nil => simp [Memory.write, Memory.read, h.symm]
  | cons c m ih =>
    obtain ⟨k, y⟩ := c
    simp only [Memory.write]
    split
    · simp only [Memory.read, ih]
    · split
      · subst k; simp [Memory.read, h.symm]
      · simp [Memory.read, h.symm]

end Sys2Proof.Machine
end

