-- ==== Sys2Proof/Laws/Operands.lean ====
section
/-! SUPPORT. What `resolve`, `build` and `collect` can answer. -/

namespace Sys2Proof.Machine

theorem resolve_gpr (n : BitVec 4) : resolve .gpr n.toNat = .ok (dReg n) := by
  revert n; decide

theorem resolve_addr (n : BitVec 4) : resolve .addr n.toNat = .ok (aReg n) := by
  revert n; decide

theorem resolve_ext_even (n : BitVec 4) (h : n.toNat % 2 = 0) : resolve .ext n.toNat = .ok (eReg n) := by
  revert n; decide

theorem resolve_ext_odd (n : Nat) (h : n % 2 = 1) : resolve .ext n = .error .unknownRegister := by
  simp [resolve, h]

theorem lookupReg_ok {regs : List RegisterId} {n : Nat} {r : RegisterId} (h : lookupReg regs n = .ok r) :
    regs[n]? = some r := by
  unfold lookupReg at h
  split at h
  · cases h; assumption
  · cases h

/-- Everything `resolve` can answer: a register of its class's list, or `UnknownRegister` (R80, R84). -/
theorem resolve_cases (cls : RegClass) (raw : Nat) :
    (∃ r, resolve cls raw = .ok r ∧ r ∈ gprRegs ++ addrRegs ++ extRegs) ∨
    resolve cls raw = .error .unknownRegister := by
  have key : ∀ regs n, (∃ r, lookupReg regs n = .ok r ∧ r ∈ regs) ∨
      lookupReg regs n = .error .unknownRegister := by
    intro regs n
    unfold lookupReg
    split
    · exact .inl ⟨_, rfl, List.mem_of_getElem? ‹_›⟩
    · exact .inr rfl
  cases cls with
  | gpr => exact (key gprRegs raw).imp_left fun ⟨r, h, m⟩ => ⟨r, h, by simp [m]⟩
  | addr => exact (key addrRegs raw).imp_left fun ⟨r, h, m⟩ => ⟨r, h, by simp [m]⟩
  | ext =>
    simp only [resolve]
    split
    · exact (key extRegs _).imp_left fun ⟨r, h, m⟩ => ⟨r, h, by simp [m]⟩
    · exact .inr rfl

theorem resolvable_of_mem {r : RegisterId} (h : r ∈ gprRegs ++ addrRegs ++ extRegs) : r.resolvable = true := by
  revert r; decide

/-- Everything `build` can answer: a valid operand, or `UnknownRegister` (R95, R98). -/
theorem build_cases (d : Descriptor) (w : Word) :
    (∃ op, build d w = .ok op ∧ op.valid = true) ∨ build d w = .error .unknownRegister := by
  cases d with
  | regOp cls f =>
    rcases resolve_cases cls (extract w f) with ⟨r, h, m⟩ | h
    · exact .inl ⟨.register r, by simp [build, buildRegister, h], resolvable_of_mem m⟩
    · exact .inr (by simp [build, buildRegister, h])
  | immOp ps x => exact .inl ⟨_, rfl, rfl⟩
  | memOp cls f ps x =>
    rcases resolve_cases cls (extract w f) with ⟨r, h, m⟩ | h
    · exact .inl ⟨.memory r (extend x (gather w ps).1 (gather w ps).2), by simp only [build, buildMemory, h],
        resolvable_of_mem m⟩
    · exact .inr (by simp only [build, buildMemory, h])

/-- `collect` answers the operands exactly when no slot failed. -/
theorem collect_ok {built : List (Except DecodeError Operand)} {ops : List Operand} :
    collect built = .ok ops ↔ built = ops.map .ok := by
  induction built generalizing ops with
  | nil => cases ops <;> simp [collect]
  | cons b built ih =>
    cases b with
    | error e => cases ops <;> simp [collect]
    | ok op =>
      cases hc : collect built with
      | error e =>
        have : ∀ os, built ≠ List.map Except.ok os := fun os h => by rw [ih.2 h] at hc; cases hc
        cases ops with
        | nil => simp [collect, hc]
        | cons o os => simp [collect, hc, this]
      | ok os =>
        have := ih.1 hc
        subst this
        cases ops with
        | nil => simp [collect, hc]
        | cons o os' =>
          simp only [collect, hc, Except.ok.injEq, List.map_cons, List.cons.injEq]
          constructor
          · rintro ⟨rfl, rfl⟩; exact ⟨rfl, rfl⟩
          · rintro ⟨rfl, h⟩
            exact ⟨rfl, List.map_injective_iff.2 (fun _ _ => Except.ok.inj) h⟩

/-- A failing slot makes `collect` fail. -/
theorem collect_error {built : List (Except DecodeError Operand)} {e : DecodeError} (h : .error e ∈ built) :
    ∃ e', collect built = .error e' := by
  cases hc : collect built with
  | error e' => exact ⟨e', rfl⟩
  | ok ops => rw [collect_ok.1 hc] at h; simp at h

@[simp] theorem ofList_get (ops : List Operand) {j : Nat} (h : j < 8) :
    (OperandSlots.ofList ops).get j = ops.getD j .invalid := by
  rcases j with _ | _ | _ | _ | _ | _ | _ | _ | j <;> first | rfl | omega

theorem extract_lt (w : Word) (p : Piece) : extract w p < 2 ^ p.width := Nat.mod_lt _ (Nat.two_pow_pos _)

/-- `INVALID_RECORD` is a valid record. -/
theorem invalidRecord_valid {M : Type} : (invalidRecord : Record M).Valid := by
  refine ⟨by simp [invalidRecord], by simp [invalidRecord], ?_, by simp [invalidRecord], by simp [invalidRecord]⟩
  intro j _ h
  simp only [invalidRecord]
  rw [ofList_get _ h]
  simp

/-- A record built from at most 8 slots whose operands are valid is valid. -/
theorem recordOf_valid {M : Type} (m : M) (g : GroupSet) {built : List (Except DecodeError Operand)}
    (hb : built.length ≤ 8) (hv : ∀ op, .ok op ∈ built → op.valid = true) :
    (recordOf (.real m) g built).Valid := by
  unfold recordOf
  split
  · next ops h =>
    obtain rfl := collect_ok.1 h
    simp only [List.length_map] at hb
    refine ⟨hb, fun j hj => ?_, fun j h1 h2 => ?_, by simp [invalidRecord], by simp⟩
    · simp only at hj ⊢
      rw [ofList_get _ (by omega), List.getD_eq_getElem _ _ hj]
      exact hv _ (List.mem_map_of_mem (List.getElem_mem _))
    · simp only at h1 ⊢
      rw [ofList_get _ h2, List.getD_eq_default _ _ h1]
  · exact invalidRecord_valid

end Sys2Proof.Machine
end

