-- ==== Sys2Proof/Laws/PerInstr.lean ====
section
/-! SUPPORT. Facts about every instruction as syntax, one lemma per constructor. -/

namespace Sys2Proof.Laws.EncodingLength

/-- The instruction's encoding is as many bytes as its row says, and the length bit of its word, bit 0, names
that length (W3 of R56, R51). -/
def Statement (i : Instr) : Prop :=
  (encode i).length = i.length ∧ (encodeWord i).getLsbD 0 = (i.length == 4)

theorem movSrc (a const4 : BitVec 4) : Statement (.movSrc a const4) :=
  ⟨encode_length _, by simp [encodeWord, place, Instr.length]⟩
theorem movSrr (a b : BitVec 4) : Statement (.movSrr a b) :=
  ⟨encode_length _, by simp [encodeWord, place, Instr.length]⟩
theorem movESrc (a const4 : BitVec 4) : Statement (.movESrc a const4) :=
  ⟨encode_length _, by simp [encodeWord, place, Instr.length]⟩
theorem retSr : Statement .retSr := ⟨encode_length _, by decide⟩
theorem ldWSlr (c b : BitVec 4) : Statement (.ldWSlr c b) :=
  ⟨encode_length _, by simp [encodeWord, place, Instr.length]⟩
theorem movRlc (c : BitVec 4) (const16 : BitVec 16) : Statement (.movRlc c const16) :=
  ⟨encode_length _, by simp [encodeWord, place, Instr.length]⟩
theorem retSys : Statement .retSys := ⟨encode_length _, by decide⟩
theorem ldWBo (a b : BitVec 4) (off10 : BitVec 10) : Statement (.ldWBo a b off10) :=
  ⟨encode_length _, by simp [encodeWord, place, Instr.length]⟩
theorem ldWBol (a b : BitVec 4) (off16 : BitVec 16) : Statement (.ldWBol a b off16) :=
  ⟨encode_length _, by simp [encodeWord, place, Instr.length]⟩

end Sys2Proof.Laws.EncodingLength
end

