-- ==== Sys2Proof/Laws/Step.lean ====
section
/-! SUPPORT. What an instruction and a step can do, said once. -/

namespace Sys2Proof.Machine

@[simp] theorem returnRecord_eq (m : RefMnemonic) (g : GroupSet) (built : List (Except DecodeError Operand))
    (len : Nat) (s : State) :
    returnRecord m g built len s = .next (s.returnOk (recordOf (.real m) g built) len) := rfl

/-- Every instruction returns one record and advances by its own length. -/
theorem exec_returns (i : Instr) (s : State) :
    ∃ (m : RefMnemonic) (g : GroupSet) (built : List (Except DecodeError Operand)),
      exec i s = .next (s.returnOk (recordOf (.real m) g built) i.length) := by
  cases i <;> exact ⟨_, _, _, rfl⟩

/-- Everything a step can do (R120, R125). -/
theorem step_cases (s : State) :
    (s.status ≠ .running ∧ step s = .next s) ∨
    (s.status = .running ∧ s.inAvail = 0 ∧ step s = .next s.returnDone) ∨
    (s.status = .running ∧ s.inAvail ≠ 0 ∧ fetchWord s.window = .error .bufferTooShort ∧
      step s = .next s.returnShort) ∨
    (∃ len w r, s.status = .running ∧ s.inAvail ≠ 0 ∧ fetchWord s.window = .ok (len, w) ∧
      step s = .next (s.returnOk r len)) := by
  unfold step
  split
  · next h => exact .inl ⟨by simp [h], rfl⟩
  · next h => exact .inl ⟨by simp [h], rfl⟩
  · next hs =>
    split
    · next h0 => exact .inr (.inl ⟨hs, h0, rfl⟩)
    · next h0 =>
      split
      · next e he =>
        cases fetchWord_error he
        exact .inr (.inr (.inl ⟨hs, h0, he, rfl⟩))
      · next len w hf =>
        refine .inr (.inr (.inr ⟨len, w, ?_⟩))
        split
        · exact ⟨_, hs, h0, hf, rfl⟩
        · next i hi =>
          obtain ⟨m, g, built, he⟩ := exec_returns i s
          rw [decodeWord_length (fetchWord_length hf).1 hi] at he
          exact ⟨_, hs, h0, hf, he⟩

end Sys2Proof.Machine
end

