-- ==== Sys2Proof/Tests/Slice0.lean ====
section
/-! SUPPORT. Tests, their expected results taken from the spec (95_test_vectors.md unless another file is named),
the smoke test of the well-formedness checks, and a witness for the hypotheses of every statement. -/

namespace Sys2Proof.Tests

open Sys2Proof.Machine

/-! ## The well-formedness checks refuse (R56) -/

/-- A well-formed entry the ill-formed ones below differ from in one component. -/
def good : Entry RefMnemonic := rowMovSrc

theorem test_good_entry : good.defects = [] := by decide
theorem test_instr_odd_extended : (Instr.movESrc 3 5).WellFormed = false := by decide
theorem test_instr_even_extended : (Instr.movESrc 14 8).WellFormed = true := by decide
theorem test_w1 : .w1 ∈ Entry.defects { good with len := 6 } := by decide
theorem test_w2_match_outside_mask : .w2 ∈ Entry.defects { good with pat := 0x0182 } := by decide
theorem test_w2_mask_too_wide : .w2 ∈ Entry.defects { good with mask := 0x100FF } := by decide
theorem test_w3_class_bit_unmasked : .w3 ∈ Entry.defects { good with mask := 0x00FE } := by decide
theorem test_w3_class_bit_wrong : .w3 ∈ Entry.defects { good with pat := 0x0083 } := by decide
theorem test_w4 : .w4 ∈ Entry.defects (M := RefMnemonic) { good with mnemonic := .invalid } := by decide
theorem test_w4_ending : .w4 ∈ Entry.defects (M := RefMnemonic) { good with mnemonic := .ending } := by decide
theorem test_w5 : .w5 ∈ Entry.defects { good with slots := List.replicate 9 (.regOp .gpr ⟨11, 8⟩) } := by
  decide
theorem test_w6 : .w6 ∈ Entry.defects { good with slots := [.regOp .gpr ⟨16, 13⟩] } := by decide
theorem test_w6_reversed : .w6 ∈ Entry.defects { good with slots := [.regOp .gpr ⟨8, 11⟩] } := by decide
theorem test_w7_five_bits : Entry.regFields4 { good with slots := [.regOp .gpr ⟨12, 8⟩] } = false := by decide
theorem test_w8_no_piece : .w8 ∈ Entry.defects { good with slots := [.immOp [] .signed] } := by decide
theorem test_w8_unsigned_32 : .w8 ∈ Entry.defects
    { rowMovRlc with slots := [.immOp [⟨31, 16⟩, ⟨15, 0⟩] .unsigned] } := by decide
theorem test_w9 : .w9 ∈ Entry.defects
    { rowMovRlc with slots := [.memOp .addr ⟨15, 12⟩ [⟨31, 0⟩, ⟨0, 0⟩] .signed] } := by decide
theorem test_w11 : .w11 ∈ Entry.defects { good with pat := 0 } := by decide
theorem test_w10_same_entry_twice : Table.unambiguous [good, good] = false := by decide
theorem test_configure_refuses : Table.configure [{ good with pat := 0 }] = .error [.w11] := by decide

/-! ## Words written out bit by bit from the patterns of 43, 44 and 45 decode to their rows -/

/-- `cccc aaaa 1000 0010` (R140). -/
theorem test_decode_movSrc : decodeTableWord 16 0b1111001110000010 = some (.movSrc 3 15) := by decide
/-- `bbbb aaaa 0000 0010` (R141). -/
theorem test_decode_movSrr : decodeTableWord 16 0b0010000100000010 = some (.movSrr 1 2) := by decide
/-- `cccc aaaa 1101 0010` (R143). -/
theorem test_decode_movESrc : decodeTableWord 16 0b1000111011010010 = some (.movESrc 14 8) := by decide
/-- `1001 ---- 0000 0000`, the unused bits set (R150). -/
theorem test_decode_retSr : decodeTableWord 16 0b1001111100000000 = some .retSr := by decide
/-- `bbbb cccc 0101 0100` (R157). -/
theorem test_decode_ldWSlr : decodeTableWord 16 0b0100001101010100 = some (.ldWSlr 3 4) := by decide
/-- `cccc kkkk kkkk kkkk kkkk ---- 0011 1011` (R142). -/
theorem test_decode_movRlc :
    decodeTableWord 32 0b00100111111111111111101000111011 = some (.movRlc 2 0x7FFF) := by decide
/-- `---- 0001 10-- ---- ---- ---- 0000 1101`, the unused bits set (R151). -/
theorem test_decode_retSys : decodeTableWord 32 0b11110001101111111111111100001101 = some .retSys := by decide
/-- `oooo 1001 00oo oooo bbbb aaaa 0000 1001` (R155). -/
theorem test_decode_ldWBo :
    decodeTableWord 32 0b10001001000000010010000100001001 = some (.ldWBo 1 2 0x201) := by decide
/-- `mmmm hhhh hhll llll bbbb aaaa 0001 1001` (R156). -/
theorem test_decode_ldWBol :
    decodeTableWord 32 0b10000001001101001010010100011001 = some (.ldWBol 5 10 0x1234) := by decide
/-- `op2 = 8` under `op1 = 0x00` is no row (D21). -/
theorem test_decode_not_ret : decodeTableWord 16 0x8000 = none := by decide
/-- `op2 = 0x04` under `op1 = 0x09` is no row (D32). -/
theorem test_decode_not_ldWBo : decodeTableWord 32 0x01042109 = none := by decide
theorem test_encode_ldWBo : encode (.ldWBo 1 2 0x3FC) = [0x09, 0x21, 0x3C, 0xF9] := by decide
theorem test_encode_movRlc : encode (.movRlc 4 0x8000) = [0x3B, 0x00, 0x00, 0x48] := by decide

/-! ## One step on a small buffer -/

/-- The start of a scan of a buffer. -/
def start (buf : List Byte) : State := State.load buf 0

/-- The operands, operand count and length of the record a step returned last, if it answered a next state. -/
def returned (o : Host.Outcome State Fault Refusal) : Option (Mnemonic RefMnemonic × Nat × List Operand × Nat) :=
  match o with
  | .next s => s.out.getLast?.map fun e =>
      (e.record.mnemonic, e.record.operandCount, [e.record.operands.op0, e.record.operands.op1], e.length)
  | .fault _ => none
  | .refused _ => none

/-- D1 -/
theorem test_step_movSrc : returned (step (start [0x82, 0x50])) =
    some (.real .mov, 2, [.register .d0, .immediate 5], 2) := by decide
/-- D3 -/
theorem test_step_movSrc_min : returned (step (start [0x82, 0x80])) =
    some (.real .mov, 2, [.register .d0, .immediate (-8)], 2) := by decide
/-- D8 -/
theorem test_step_movSrr : returned (step (start [0x02, 0xFF])) =
    some (.real .mov, 2, [.register .d15, .register .d15], 2) := by decide
/-- D15 -/
theorem test_step_movESrc : returned (step (start [0xD2, 0x8E])) =
    some (.real .mov, 2, [.register .e14, .immediate (-8)], 2) := by decide
/-- D17 -/
theorem test_step_movESrc_odd : returned (step (start [0xD2, 0x53])) =
    some (.invalid, 0, [.invalid, .invalid], 2) := by decide
/-- D20 -/
theorem test_step_retSr : returned (step (start [0x00, 0x9F])) =
    some (.real .ret, 0, [.invalid, .invalid], 2) := by decide
/-- D38 -/
theorem test_step_ldWSlr : returned (step (start [0x54, 0x43])) =
    some (.real .ldW, 2, [.register .d3, .memory .a4 0], 2) := by decide
/-- D10 -/
theorem test_step_movRlc : returned (step (start [0x3B, 0x00, 0x00, 0x48])) =
    some (.real .mov, 2, [.register .d4, .immediate (-32768)], 4) := by decide
/-- D24 -/
theorem test_step_retSys : returned (step (start [0x0D, 0x0F, 0x80, 0xF1])) =
    some (.real .ret, 0, [.invalid, .invalid], 4) := by decide
/-- D28 -/
theorem test_step_ldWBo : returned (step (start [0x09, 0x21, 0x3C, 0xF9])) =
    some (.real .ldW, 2, [.register .d1, .memory .a2 (-4)], 4) := by decide
/-- D37 -/
theorem test_step_ldWBol : returned (step (start [0x19, 0x21, 0x3F, 0xFF])) =
    some (.real .ldW, 2, [.register .d1, .memory .a2 (-3073)], 4) := by decide
/-- F6: an unrecognised word of the 32-bit class costs 4 bytes. -/
theorem test_step_unrecognised : returned (step (start [0xFF, 0xFF, 0xFF, 0xFF])) =
    some (.invalid, 0, [.invalid, .invalid], 4) := by decide
/-- F4 -/
theorem test_step_short : (match step (start [0x3B, 0x50, 0x00]) with
    | .next s => some (s.status, s.out.length) | _ => none) = some (.stoppedShort 0, 0) := by decide
/-- R150: the group of RET is the open parameter. -/
theorem test_ret_group : (match step (start [0x00, 0x90]) with
    | .next s => s.out.map fun e => e.record.groups | _ => []) = [⟨Config.retIsJump⟩] := by rfl

/-! ## The table-driven decoder and the scan -/

/-- D33 -/
theorem test_decode_table : decode (refTable false) [0x19, 0x21, 0x04, 0x00] 7 =
    .ok ⟨.real .ldW, ⟨false⟩, 2, .ofList [.register .d1, .memory .a2 4]⟩ 4 := by decide
/-- X7 -/
theorem test_gather : gather 0x8134A519 [⟨27, 22⟩, ⟨31, 28⟩, ⟨21, 16⟩] = (0x1234, 16) := by decide
/-- X10 -/
theorem test_sext9 : (sext 9 0x100).toInt = -256 ∧ (sext 9 0x0FF).toInt = 255 := by decide
/-- B7 -/
theorem test_build_unsigned : build (.immOp [⟨15, 12⟩] .unsigned) 0xF382 = .ok (.immediate 15) := by decide
/-- B13 -/
theorem test_build_bad_base : build (.memOp .ext ⟨15, 12⟩ [] .signed) 0x3354 = .error .unknownRegister := by
  decide
/-- V12 -/
theorem test_resolve_16 : resolve .ext 16 = .error .unknownRegister := by decide
/-- P3: the end of the scan. -/
theorem test_scan_short : (scan (refTable true) [0x54, 0x43, 0xD2, 0x53, 0x19, 0x21, 0x04] 0xFFFFFFFFFFFFFFFE).2 =
    .stoppedShort 4 := by decide
/-- P3: the address of the call at offset 2 wraps. -/
theorem test_address_wraps :
    State.inAddr { State.load [0x54, 0x43, 0xD2, 0x53] 0xFFFFFFFFFFFFFFFE with off := 2 } = 0 := by decide
/-- P5: the offsets and lengths of a scan off a boundary. -/
theorem test_scan_off_boundary :
    (scan (refTable true) [0x50, 0x09, 0x21, 0x04, 0x09, 0x00, 0x90] 0x80000001).1.map
      (fun e => (e.off, e.record.mnemonic, e.length)) = [(0, .invalid, 2), (2, .invalid, 4)] := by decide
/-- P3: the retry with one more byte. -/
theorem test_retry : returned (step (({ start [0x19, 0x21, 0x04] with status := .stoppedShort 0 } : State).retryWith
    [0x00])) = some (.real .ldW, 2, [.register .d1, .memory .a2 4], 4) := by decide

/-! ## Witnesses: every statement's hypotheses can be met -/

theorem witness_StepRunsTheDecodedInstruction :
    (start [0x82, 0x50]).status = .running ∧
    decodeBytes (start [0x82, 0x50]).window = .ok (.movSrc 0 5, []) := by decide

theorem witness_StepOnAnUnrecognisedWord :
    (start [0, 0]).status = .running ∧ fetchWord (start [0, 0]).window = .ok (2, 0) ∧
    decodeWord 2 0 = .error .unrecognizedOpcode ∧
    fetchWord (start [1, 0, 0, 0]).window = .ok (4, 1) ∧ decodeWord 4 1 = .error .unrecognizedOpcode := by decide

theorem witness_StepOnATruncatedWindow :
    (start [0x82]).status = .running ∧ (start [0x82]).inAvail = 1 ∧
    (start [0x3B, 0x50]).inAvail = 2 ∧ ((start [0x3B, 0x50]).window.headD 0).getLsbD 0 = true ∧
    (start [0x3B, 0x50, 0]).inAvail = 3 ∧ ((start [0x3B, 0x50, 0]).window.headD 0).getLsbD 0 = true := by decide

theorem witness_StepAtTheEndReturnsDone :
    (start []).status = .running ∧ (start []).inAvail = 0 := by decide

theorem witness_NothingHappensAfterTheScan :
    (start []).returnDone.status = .done ∧ (start [0x82]).returnShort.status = .stoppedShort 0 := by decide

theorem witness_NoStepWritesTheBuffer : step (start []) = .next (start []).returnDone := by rfl

/-- Also for the statements on progress and on one `decode` call a step. -/
theorem witness_EveryStepMakesProgress :
    (start [0x02, 0x21]).status = .running ∧ (start [0x02, 0x21]).inAvail ≠ 0 ∧
    Memory.wf (start [0x02, 0x21]).mem ∧
    step (start [0x02, 0x21]) = .next ((start [0x02, 0x21]).returnOk
      ⟨.real .mov, ⟨false⟩, 2, .ofList [.register .d1, .register .d2]⟩ 2) := by
  exact ⟨rfl, by decide, by decide, rfl⟩

theorem witness_EveryStepMakesProgress_short :
    (start [0x3B]).inAvail ≠ 0 ∧ step (start [0x3B]) = .next (start [0x3B]).returnShort := by
  exact ⟨by decide, rfl⟩

theorem witness_EveryStepKeepsTheScanConsistent :
    (start [0x82]).Inv ∧ step (start [0x82]) = .next (start [0x82]).returnShort := by
  refine ⟨?_, rfl⟩
  simp [State.Inv, start, ofBytes_contiguous, tiles]

theorem witness_RunningTheMachineIsTheScan : (([0x82] : List Byte).length + 1) / 2 + 1 ≤ 2 := by decide

theorem witness_wf_table : Table.wf (refTable true) = true ∧ Table.wf (refTable false) = true := by decide

theorem witness_NextCallStartsWhereThisOneEnded :
    Memory.wf (start [0x82]).mem ∧ step (start [0x82]) = .next (start [0x82]).returnShort := by
  exact ⟨by decide, rfl⟩

/-- Two states with one window and different pasts. -/
theorem witness_EqualWindowsGiveEqualResults :
    (start [0x82, 0x50]).status = .running ∧ (start [0x82, 0x50]).inAvail ≠ 0 ∧
    ({ start [0, 0, 0x82, 0x50] with off := 2, out := [⟨0, invalidRecord, 2⟩] } : State).status = .running ∧
    (start [0x82, 0x50]).window =
      ({ start [0, 0, 0x82, 0x50] with off := 2, out := [⟨0, invalidRecord, 2⟩] } : State).window := by decide

theorem witness_RetryIsACallWithALongerWindow :
    (start [0x19, 0x21, 0x04]).returnShort.Inv ∧
    (start [0x19, 0x21, 0x04]).returnShort.status = .stoppedShort 0 := by
  refine ⟨?_, rfl⟩
  simp [State.Inv, start, ofBytes_contiguous, tiles]

theorem witness_PlacedWordIsRunNext :
    Memory.wf State.reset.mem ∧ decodeTableWord 16 0x9000 = some .retSr := by decide

theorem witness_rows16 :
    (0x5082#16).extractLsb' 0 8 = 0x82#8 ∧ (0x2102#16).extractLsb' 0 8 = 0x02#8 ∧
    (0x52D2#16).extractLsb' 0 8 = 0xD2#8 ∧ (0x4354#16).extractLsb' 0 8 = 0x54#8 ∧
    (0x9F00#16).extractLsb' 0 8 = 0x00#8 ∧ (0x9F00#16).extractLsb' 12 4 = 0x9#4 ∧
    (0x8000#16).extractLsb' 0 8 = 0x00#8 ∧ (0x8000#16).extractLsb' 12 4 ≠ 0x9#4 ∧
    (2#4).getLsbD 0 = false ∧ (3#4).getLsbD 0 = true := by decide

theorem witness_rows32 :
    (0x4800003B#32).extractLsb' 0 8 = 0x3B#8 ∧
    (0xF1800F0D#32).extractLsb' 0 8 = 0x0D#8 ∧ (0xF1800F0D#32).extractLsb' 22 6 = 0x06#6 ∧
    (0x01C0000D#32).extractLsb' 0 8 = 0x0D#8 ∧ (0x01C0000D#32).extractLsb' 22 6 ≠ 0x06#6 ∧
    (0x01042109#32).extractLsb' 0 8 = 0x09#8 ∧ (0x01042109#32).extractLsb' 22 6 ≠ 0x24#6 ∧
    (0xF93C2109#32).extractLsb' 0 8 = 0x09#8 ∧ (0xF93C2109#32).extractLsb' 22 6 = 0x24#6 ∧
    (0x8134A519#32).extractLsb' 0 8 = 0x19#8 := by decide

theorem witness_OnlyAnOddExtendedRegisterIsUnknown :
    dispatch (refTable true) 2 0x53D2 = some rowMovESrc ∧ .regOp .ext ⟨11, 8⟩ ∈ rowMovESrc.slots ∧
    build (.regOp .ext ⟨11, 8⟩) 0x53D2 = .error .unknownRegister := by decide

theorem witness_OnlyRetCanBeAJump :
    decode (refTable true) [0x00, 0x90] 0 = .ok ⟨.real .ret, ⟨true⟩, 0, .ofList []⟩ 2 := by decide

theorem witness_WindowIsReadLittleEndian :
    (0x82#8).getLsbD 0 = false ∧ (0x3B#8).getLsbD 0 = true := by decide

/-- F2 to F6: each clause at the edges of its range. -/
theorem witness_BufferTooShortExactlyWhenTruncated :
    decode (refTable true) [] 0 = .bufferTooShort ∧ decode (refTable true) [0x82] 0 = .bufferTooShort ∧
    decode (refTable true) [0xFF, 0xFF] 0 = .bufferTooShort ∧
    decode (refTable true) [0x3B, 0x50, 0] 0 = .bufferTooShort ∧
    decode (refTable true) [0xFF, 0xFF, 0xFF, 0xFF] 0 = .ok invalidRecord 4 ∧
    decode (refTable true) [0xFE, 0xFF] 0 = .ok invalidRecord 2 := by decide

theorem witness_ResultDependsOnTheInstructionBytesOnly :
    ([0x3B, 0x50, 0, 0, 0xFF] : List Byte).take 4 = ([0x3B, 0x50, 0, 0] : List Byte).take 4 ∧
    (0x02#8).getLsbD 0 = false ∧ ([] : List Byte).length < 2 ∧ ([0x82] : List Byte).length < 2 ∧
    memRead [0x82] 0 2 = none ∧ memRead [0x3B, 0x50, 0] 0 2 = some 0x503B ∧
    memRead [0x3B, 0x50, 0] 0 (lenClass 0x503B) = none := by decide

/-- D13: `w[11:8]` of MOV_RLC is don't-care. -/
theorem witness_FirstMatchingEntryIsSelected :
    (0x00005A3B : Word) &&& rowMovRlc.mask = 0x0000503B &&& rowMovRlc.mask ∧
    (∀ d ∈ rowMovRlc.slots, ∀ p ∈ d.pieces, extract 0x00005A3B p = extract 0x0000503B p) ∧
    dispatch (refTable true) 4 0x00005A3B = some rowMovRlc ∧ dispatch (refTable true) 2 0 = none := by decide

theorem witness_MatchedEntryGivesItsRecord :
    fetchWord [0x82, 0x50] = .ok (2, 0x5082) ∧ dispatch (refTable true) 2 0x5082 = some rowMovSrc ∧
    rowMovSrc.slots.length ≤ 8 ∧
    rowMovSrc.slots.map (fun d => build d 0x5082) = [.ok (.register .d0), .ok (.immediate 5)] := by decide

theorem witness_UnrecognisedWordGivesTheInvalidRecord :
    fetchWord [0, 0] = .ok (2, 0) ∧
    ∀ e ∈ refTable true, ¬ (e.len = 2 ∧ (0 : Word) &&& e.mask = e.pat) := by decide

theorem witness_UnknownRegisterGivesTheInvalidRecord :
    fetchWord [0xD2, 0x53] = .ok (2, 0x53D2) ∧ dispatch (refTable true) 2 0x53D2 = some rowMovESrc ∧
    .regOp .ext ⟨11, 8⟩ ∈ rowMovESrc.slots ∧
    build (.regOp .ext ⟨11, 8⟩) 0x53D2 = .error .unknownRegister := by decide

theorem witness_EveryReturnedRecordIsValid :
    Table.wf (refTable true) = true ∧ decode (refTable true) [0, 0] 0 = .ok invalidRecord 2 ∧
    decode (refTable true) [0x02, 0x21] 0 =
      .ok ⟨.real .mov, ⟨false⟩, 2, .ofList [.register .d1, .register .d2]⟩ 2 := by decide

theorem witness_OrderOfAnUnambiguousTableIsIrrelevant :
    Table.unambiguous (refTable true) = true ∧ (refTable true).Perm (refTable true).reverse :=
  ⟨by decide, (List.reverse_perm _).symm⟩

theorem witness_WellFormedTablesAreThoseOfTheConditions :
    Table.wf [good] = true ∧ Table.wf [{ good with pat := 0 }] = false ∧
    .immOp [⟨15, 12⟩] .signed ∈ good.slots ∧
    .memOp .addr ⟨15, 12⟩ [⟨31, 28⟩, ⟨21, 16⟩] .signed ∈ rowLdWBo.slots := by decide

/-- V1 to V12: each clause at the edges of its range. -/
theorem witness_ResolveNamesTheRegisterOfItsClass :
    resolve .gpr 0 = .ok .d0 ∧ resolve .gpr 15 = .ok .d15 ∧ resolve .gpr 16 = .error .unknownRegister ∧
    resolve .addr 0 = .ok .a0 ∧ resolve .addr 15 = .ok .a15 ∧ resolve .addr 255 = .error .unknownRegister ∧
    resolve .ext 0 = .ok .e0 ∧ resolve .ext 14 = .ok .e14 ∧ resolve .ext 15 = .error .unknownRegister ∧
    RegisterId.e14.id = 40 := by decide

/-- X5 and X14, X13, X15: the edges of the widths. -/
theorem witness_widths :
    extract 0xFFFFFFFF ⟨31, 31⟩ = 1 ∧ (sext 1 1).toInt = -1 ∧ (sext 32 0x80000000).toInt = -2147483648 ∧
    (zext 0x7FFFFFFF).toInt = 2147483647 := by decide

theorem witness_BuildReturnsTheOperandOfItsShape :
    resolve .gpr (extract 0x5082 ⟨11, 8⟩) = .ok .d0 ∧
    resolve .ext (extract 0x53D2 ⟨11, 8⟩) = .error .unknownRegister ∧ ([⟨15, 12⟩] : List Piece) ≠ [] := by decide

end Sys2Proof.Tests
end

section
/-! PROOFS. The state family (10_state.md): a running step is fixed by its window (O18), the numbering of the
Register Catalog (O48), and the numeric codes of the outputs (O51). -/

namespace Sys2Proof.Machine

/-! ## What a running step does, one equation per branch -/

section StepEquations

variable {s : State} {len : Nat} {w : Word}

/-- R111, R113, R125: a window the fetch cannot complete is handed back as `BufferTooShort`. -/
theorem step_of_fetchWord_error {e : DecodeError} (hs : s.status = .running) (h0 : s.inAvail ≠ 0)
    (hf : fetchWord s.window = .error e) : step s = .next s.returnShort := by
  simp [step, hs, h0, hf]

theorem inAvail_ne_zero_of_fetchWord_ok (hf : fetchWord s.window = .ok (len, w)) : s.inAvail ≠ 0 := by
  obtain ⟨hl, hle⟩ := fetchWord_length hf
  simp only [State.inAvail]
  omega

/-- R118, R125: an unrecognised word is handed back as the INVALID record with its class's length. -/
theorem step_of_decodeWord_error {e : DecodeError} (hs : s.status = .running)
    (hf : fetchWord s.window = .ok (len, w)) (hd : decodeWord len w = .error e) :
    step s = .next (s.returnInvalid len) := by
  simp [step, hs, inAvail_ne_zero_of_fetchWord_ok hf, hf, hd]

/-- R114, R125: a recognised word runs its instruction. -/
theorem step_of_decodeWord_ok {i : Instr} (hs : s.status = .running)
    (hf : fetchWord s.window = .ok (len, w)) (hd : decodeWord len w = .ok i) : step s = exec i s := by
  simp [step, hs, inAvail_ne_zero_of_fetchWord_ok hf, hf, hd]

end StepEquations

/-! ## The result of a call depends on its window alone -/

/-- One record serves every state an instruction runs in: `exec_returns` with the record fixed before the
state. -/
theorem exec_applies_one_result (i : Instr) :
    ∃ res : DecodeResult RefMnemonic, ∀ s, exec i s = .next (s.apply res) := by
  cases i <;> exact ⟨.ok _ _, fun _ => rfl⟩

/-- R10, R45: each window fixes one result, which every running state with that window applies. -/
theorem step_applies_result_of_window (win : List Byte) (hne : win.length ≠ 0) :
    ∃ res, ∀ s : State, s.status = .running → s.window = win → step s = .next (s.apply res) := by
  cases hf : fetchWord win with
  | error e =>
    refine ⟨.bufferTooShort, fun s hs hw => ?_⟩
    subst hw
    exact step_of_fetchWord_error hs hne hf
  | ok fetched =>
    obtain ⟨len, w⟩ := fetched
    cases hd : decodeWord len w with
    | error e => exact ⟨.ok invalidRecord len, fun s hs hw => step_of_decodeWord_error hs (hw ▸ hf) hd⟩
    | ok i =>
      obtain ⟨res, hres⟩ := exec_applies_one_result i
      exact ⟨res, fun s hs hw => (step_of_decodeWord_ok hs (hw ▸ hf) hd).trans (hres s)⟩

/-- Settles O18: the result is the one the common window fixes. -/
theorem equalWindowsGiveEqualResults : Obligations.EqualWindowsGiveEqualResults := by
  intro s s' hs hs' h0 hw
  obtain ⟨res, hres⟩ := step_applies_result_of_window s.window h0
  exact ⟨res, hres s hs rfl, hres s' hs' hw.symm⟩

/-! ## The numbering of the Register Catalog (R22) -/

theorem mem_allRegs (r : RegisterId) : r ∈ allRegs := by
  cases r <;> decide

theorem dReg_id (n : BitVec 4) : (dReg n).id = 1 + n.toNat := by
  revert n; decide

theorem aReg_id (n : BitVec 4) : (aReg n).id = 17 + n.toNat := by
  revert n; decide

theorem eReg_id_of_even (n : BitVec 4) : n.toNat % 2 = 0 → (eReg n).id = 33 + n.toNat / 2 := by
  revert n; decide

theorem RegisterId.id_pos (r : RegisterId) : 1 ≤ r.id := Nat.le_add_left _ _

theorem RegisterId.id_lt_registerEnding (r : RegisterId) : r.id < registerEnding :=
  Nat.succ_lt_succ (List.idxOf_lt_length_of_mem (mem_allRegs r))

/-- An ID is a place in the catalog's order, so the lookup at that place gives the register back. -/
theorem RegisterId.ofId_id (r : RegisterId) : RegisterId.ofId r.id = some r :=
  List.getElem?_idxOf (mem_allRegs r)

theorem RegisterId.ofId_of_registerEnding_le {n : Nat} (h : registerEnding ≤ n) :
    RegisterId.ofId n = none := by
  cases n with
  | zero => rfl
  | succ k => exact List.getElem?_eq_none (Nat.le_of_succ_le_succ h)

/-- Settles O48: the catalog's order, its closed forms, and the inverse on and outside the range of IDs. -/
theorem registerIdsAreDense : Obligations.RegisterIdsAreDense := by
  refine ⟨?order, ?closedForms, ?inverse, rfl, rfl, fun n => RegisterId.ofId_of_registerEnding_le⟩
  case order => decide
  case closedForms => exact fun n => ⟨dReg_id n, aReg_id n, eReg_id_of_even n⟩
  case inverse => exact fun r => ⟨r.id_pos, r.id_lt_registerEnding, r.ofId_id⟩

/-! ## The numeric codes (R15, R23, R24, R170) -/

/-- R3, D11: the numbering of the table's mnemonics is injective and starts at 1. -/
theorem refMnemonicId_valid : validNumbering refMnemonics refMnemonicId = true := by decide

/-- Settles O51: each number is the value of its rendering function at one constructor. -/
theorem numericCodesAreTheSpecs : Obligations.NumericCodesAreTheSpecs := by
  refine ⟨?invalid, ?ldW, ?mov, ?ret, ?ending, refMnemonicId_valid, ?groupInvalid, ?groupJump, ?groupEnding,
    ?tagInvalid, fun _ => ?tagRegister, fun _ => ?tagImmediate, fun _ _ => ?tagMemory, fun _ _ => ?statusOk,
    ?statusShort⟩ <;> rfl

end Sys2Proof.Machine
end

section
/-! PROOFS. The memory family (20_memory.md): no step writes the buffer (O8), what a result can depend on (O37),
and how a window is read (O35). -/

namespace Sys2Proof

/-! ## Reading the window (R38, R42) -/

/-- R42: a read is undefined exactly when it would go past `in_avail`. -/
theorem memRead_eq_none_iff {win : List Byte} {off n : Nat} :
    memRead win off n = none ↔ win.length < off + n := by
  simp [memRead]

/-- A read sees no byte from `off + n` on. -/
theorem memRead_take (win : List Byte) {off n k : Nat} (h : off + n ≤ k) :
    memRead (win.take k) off n = memRead win off n := by
  have hlen : off + n ≤ (win.take k).length ↔ off + n ≤ win.length := by
    rw [List.length_take]; omega
  have hbytes : ((win.take k).drop off).take n = (win.drop off).take n := by
    rw [List.drop_take, List.take_take, Nat.min_eq_left (by omega)]
  simp only [memRead, hlen, hbytes]

theorem memRead_two (b0 b1 : Byte) (rest : List Byte) :
    memRead (b0 :: b1 :: rest) 0 2 = some (b0.toNat + 256 * b1.toNat) := by
  simp [memRead, leValue]

theorem memRead_four (b0 b1 b2 b3 : Byte) (rest : List Byte) :
    memRead (b0 :: b1 :: b2 :: b3 :: rest) 0 4 =
      some (b0.toNat + 2 ^ 8 * b1.toNat + 2 ^ 16 * b2.toNat + 2 ^ 24 * b3.toNat) := by
  simp only [memRead, leValue, List.drop_zero, List.take_succ_cons, List.take_zero, List.length_cons]
  rw [if_pos (by omega), Option.some.injEq]
  omega

/-! ## The length class (R51, R112) -/

theorem lenClass_eq_ite_testBit (hw0 : Nat) : lenClass hw0 = if hw0.testBit 0 then 4 else 2 := by
  simp [lenClass, Nat.testBit_zero]

theorem lenClass_eq_two_or_four (hw0 : Nat) : lenClass hw0 = 2 ∨ lenClass hw0 = 4 :=
  (ite_eq_or_eq (hw0 % 2 = 1) 4 2).symm

/-- Bit 0 of the first halfword is bit 0 of byte 0. -/
theorem lenClass_halfword (b0 b1 : Byte) :
    lenClass (b0.toNat + 256 * b1.toNat) = if b0.getLsbD 0 then 4 else 2 := by
  have hbit : (b0.toNat + 256 * b1.toNat).testBit 0 = b0.getLsbD 0 := by
    simp only [BitVec.getLsbD, Nat.testBit_zero, decide_eq_decide]
    omega
  rw [lenClass_eq_ite_testBit, hbit]

/-! ## The fetch, one equation per answer (R111 to R113, R41) -/

section FetchEquations

variable {win : List Byte} {hw0 w : Nat}

theorem fetchWord_of_no_halfword (h : memRead win 0 2 = none) :
    fetchWord win = .error .bufferTooShort := by
  simp [fetchWord, h]

/-- R41: the halfword already read is the word of the 16-bit class. -/
theorem fetchWord_of_lenClass_two (h : memRead win 0 2 = some hw0) (hc : lenClass hw0 = 2) :
    fetchWord win = .ok (2, BitVec.ofNat 32 hw0) := by
  simp [fetchWord, h, hc]

theorem fetchWord_of_lenClass_four (h : memRead win 0 2 = some hw0) (hc : lenClass hw0 = 4)
    (hw : memRead win 0 4 = some w) : fetchWord win = .ok (4, BitVec.ofNat 32 w) := by
  simp [fetchWord, h, hc, hw]

/-- R113: the second check is for the bytes of the word's class. -/
theorem fetchWord_of_no_word (h : memRead win 0 2 = some hw0) (hw : memRead win 0 (lenClass hw0) = none) :
    fetchWord win = .error .bufferTooShort := by
  rcases lenClass_eq_two_or_four hw0 with hc | hc <;> rw [hc] at hw
  · rw [h] at hw
    cases hw
  · simp [fetchWord, h, hc, hw]

end FetchEquations

/-- R42: the fetch reads at most `in_byte[0..3]`. -/
theorem fetchWord_take_four (win : List Byte) : fetchWord (win.take 4) = fetchWord win := by
  simp [fetchWord, memRead_take]

/-- R42: of a word of the 16-bit class the fetch reads two bytes. -/
theorem fetchWord_of_bit_clear {b0 : Byte} (b1 : Byte) (rest : List Byte) (h : b0.getLsbD 0 = false) :
    fetchWord (b0 :: b1 :: rest) = .ok (2, BitVec.ofNat 32 (b0.toNat + 256 * b1.toNat)) :=
  fetchWord_of_lenClass_two (memRead_two b0 b1 rest)
    ((lenClass_halfword b0 b1).trans (if_neg (ne_true_of_eq_false h)))

theorem fetchWord_of_bit_set {b0 : Byte} (b1 b2 b3 : Byte) (rest : List Byte) (h : b0.getLsbD 0 = true) :
    fetchWord (b0 :: b1 :: b2 :: b3 :: rest) =
      .ok (4, BitVec.ofNat 32 (b0.toNat + 2 ^ 8 * b1.toNat + 2 ^ 16 * b2.toNat + 2 ^ 24 * b3.toNat)) :=
  fetchWord_of_lenClass_four (memRead_two b0 b1 _)
    ((lenClass_halfword b0 b1).trans (if_pos h)) (memRead_four b0 b1 b2 b3 rest)

/-- Settles O35: the two reads, the fetch on either value of bit 0, and the length class. -/
theorem windowIsReadLittleEndian : Obligations.WindowIsReadLittleEndian :=
  ⟨fun b0 b1 rest => ⟨memRead_two b0 b1 rest, fetchWord_of_bit_clear b1 rest⟩,
    fun b0 b1 b2 b3 rest => ⟨memRead_four b0 b1 b2 b3 rest, fetchWord_of_bit_set b1 b2 b3 rest⟩,
    lenClass_eq_ite_testBit⟩

namespace Machine

/-! ## The result of a call is a function of its fetch (R42, R121) -/

section DecodeOfFetch

variable {M : Type} (t : Table M) {win win' : List Byte} (addr addr' : Addr)

/-- R121: neither the address nor any byte outside the fetch reaches the result. -/
theorem decode_congr_fetchWord (h : fetchWord win = fetchWord win') :
    decode t win addr = decode t win' addr' := by
  simp only [decode, h]

theorem decode_of_fetchWord_error {e : DecodeError} (h : fetchWord win = .error e) :
    decode t win addr = .bufferTooShort := by
  simp only [decode, h]

end DecodeOfFetch

/-- Settles O37: in each clause the fetches agree, or the fetch fails. -/
theorem resultDependsOnTheInstructionBytesOnly : Obligations.ResultDependsOnTheInstructionBytesOnly := by
  intro M t addr addr'
  refine ⟨?firstFour, ?firstTwo, ?tooShort, fun _ _ _ => memRead_eq_none_iff, ?pastTheEnd⟩
  case firstFour =>
    intro win win' h
    apply decode_congr_fetchWord
    rw [← fetchWord_take_four win, h, fetchWord_take_four]
  case firstTwo =>
    intro b0 b1 rest rest' h
    apply decode_congr_fetchWord
    rw [fetchWord_of_bit_clear b1 rest h, fetchWord_of_bit_clear b1 rest' h]
  case tooShort =>
    intro win win' h h'
    apply decode_congr_fetchWord
    rw [fetchWord_of_no_halfword (memRead_eq_none_iff.2 h), fetchWord_of_no_halfword (memRead_eq_none_iff.2 h')]
  case pastTheEnd =>
    rintro win (h | ⟨hw0, h, hw⟩)
    · exact decode_of_fetchWord_error t addr (fetchWord_of_no_halfword h)
    · exact decode_of_fetchWord_error t addr (fetchWord_of_no_word h hw)

/-! ## No step writes the buffer (R43) -/

/-- The frame of a step: each way a call comes back touches the offset, the status and the end of the output
only. -/
theorem step_frame {s t : State} (h : step s = .next t) :
    t.mem = s.mem ∧ t.base = s.base ∧ ∃ more, t.out = s.out ++ more := by
  obtain ⟨-, e⟩ | ⟨-, -, e⟩ | ⟨-, -, -, e⟩ | ⟨len, w, r, -, -, -, e⟩ := step_cases s <;>
    obtain rfl := Host.Outcome.next.inj (e.symm.trans h)
  · exact ⟨rfl, rfl, [], (List.append_nil _).symm⟩
  · exact ⟨rfl, rfl, [], (List.append_nil _).symm⟩
  · exact ⟨rfl, rfl, [], (List.append_nil _).symm⟩
  · exact ⟨rfl, rfl, [⟨s.off, r, len⟩], returnOk_out s r len⟩

/-- Settles O8: by the frame of a step; equal buffers read alike. -/
theorem noStepWritesTheBuffer : Obligations.NoStepWritesTheBuffer := by
  intro s t h
  obtain ⟨hmem, hbase, hout⟩ := step_frame h
  exact ⟨fun a => by rw [hmem], hmem, hbase, hout⟩

end Machine

end Sys2Proof
end

section
/-! PROOFS. The encoding family (30_encoding.md), the instructions of `REF_TABLE`: which words decode to an
instruction (O33), and that its encoding does (O32). -/

namespace Sys2Proof

/-! ## Fields placed in a word (R62, R63) -/

/-- A value of `width` bits whose lowest bit stands at bit `lo` of the word. -/
structure PlacedField where
  width : Nat
  lo    : Nat
  value : BitVec width

namespace PlacedField

/-- The value at its place, zeros elsewhere. -/
def bits (f : PlacedField) : Word := place f.value f.lo

/-- Ones at the field's place, zeros elsewhere. -/
def mask (f : PlacedField) : Word := place (BitVec.allOnes f.width) f.lo

/-- The word shows the value at the field's place. -/
def ReadFrom (f : PlacedField) (w : Word) : Prop := w.extractLsb' f.lo f.width = f.value

/-- The word of several fields. -/
def allBits (fs : List PlacedField) : Word := fs.foldr (fun f w => f.bits ||| w) 0#32

/-- The bits several fields cover. -/
def allMask (fs : List PlacedField) : Word := fs.foldr (fun f w => f.mask ||| w) 0#32

section OneField

variable (f : PlacedField) {k : Nat}

theorem bits_bit (hk : k < 32) :
    f.bits.getLsbD k = (decide (f.lo ≤ k) && f.value.getLsbD (k - f.lo)) := place_bit _ _ hk

theorem mask_bit (hk : k < 32) :
    f.mask.getLsbD k = (decide (f.lo ≤ k) && decide (k - f.lo < f.width)) := by
  rw [mask, place_bit _ _ hk, BitVec.getLsbD_allOnes]

theorem bits_and_mask : f.bits &&& f.mask = f.bits := by
  apply BitVec.eq_of_getLsbD_eq
  intro k hk
  rw [BitVec.getLsbD_and, f.mask_bit hk, f.bits_bit hk]
  by_cases hw : k - f.lo < f.width
  · rw [decide_eq_true hw, Bool.and_true, Bool.and_right_comm, Bool.and_self]
  · simp only [BitVec.getLsbD_of_ge _ _ (Nat.le_of_not_lt hw), Bool.and_false, Bool.false_and]

/-- Reading a field is comparing the word under the field's mask. -/
theorem and_mask_eq_bits_iff (w : Word) (hf : f.lo + f.width ≤ 32) :
    w &&& f.mask = f.bits ↔ f.ReadFrom w := by
  constructor
  · intro h
    apply BitVec.eq_of_getLsbD_eq
    intro k hk
    have hk' : f.lo + k < 32 := by omega
    have hbit := congrArg (·.getLsbD (f.lo + k)) h
    simpa only [BitVec.getLsbD_and, f.mask_bit hk', f.bits_bit hk', BitVec.getLsbD_extractLsb',
      Nat.le_add_right, Nat.add_sub_cancel_left, hk, decide_true, Bool.true_and, Bool.and_true] using hbit
  · intro h
    apply BitVec.eq_of_getLsbD_eq
    intro k hk
    rw [ReadFrom] at h
    rw [BitVec.getLsbD_and, f.mask_bit hk, f.bits_bit hk, ← h, BitVec.getLsbD_extractLsb']
    by_cases hlo : f.lo ≤ k
    · simp [hlo, Nat.add_sub_cancel' hlo, Bool.and_comm]
    · simp [hlo]

/-- A field that ends below another one's lowest bit does not meet it. -/
theorem mask_and_mask_of_below {f g : PlacedField} (h : g.lo + g.width ≤ f.lo) : f.mask &&& g.mask = 0#32 := by
  apply BitVec.eq_of_getLsbD_eq
  intro k hk
  rw [BitVec.getLsbD_and, f.mask_bit hk, g.mask_bit hk, BitVec.getLsbD_zero]
  by_cases hlo : f.lo ≤ k
  · simp [show ¬ k - g.lo < g.width by omega]
  · simp [hlo]

end OneField

section SeveralFields

variable {w m n a b : Word}

/-- What lies under each mask lies, together, under both. -/
theorem or_and_or_of_and (ha : a &&& m = a) (hb : b &&& n = b) : (a ||| b) &&& (m ||| n) = a ||| b := by
  rw [← ha, ← hb]
  ext k hk
  simp only [BitVec.getElem_and, BitVec.getElem_or]
  grind

/-- Of two values under masks that do not meet, each mask lets its own value through. -/
theorem or_and_of_apart (ha : a &&& m = a) (hb : b &&& n = b) (hd : m &&& n = 0#32) : (a ||| b) &&& m = a := by
  have hbm : b &&& m = 0#32 := by
    rw [← hb, BitVec.and_assoc, BitVec.and_comm n m, hd, BitVec.and_zero]
  rw [BitVec.and_comm, BitVec.and_or_distrib_left, BitVec.and_comm m a, BitVec.and_comm m b, ha, hbm,
    BitVec.or_zero]

/-- Under masks that do not meet, a comparison of both together is a comparison of each. -/
theorem and_or_eq_or_iff (ha : a &&& m = a) (hb : b &&& n = b) (hd : m &&& n = 0#32) :
    w &&& (m ||| n) = a ||| b ↔ w &&& m = a ∧ w &&& n = b := by
  constructor
  · intro h
    have hm : (m ||| n) &&& m = m := by ext k hk; simpa using Or.inl
    have hn : (m ||| n) &&& n = n := by ext k hk; simpa using Or.inr
    constructor
    · rw [← or_and_of_apart ha hb hd, ← h, BitVec.and_assoc, hm]
    · rw [← or_and_of_apart hb ha (BitVec.and_comm n m ▸ hd), BitVec.or_comm, ← h, BitVec.and_assoc, hn]
  · rintro ⟨rfl, rfl⟩
    exact BitVec.and_or_distrib_left ..

theorem allBits_and_allMask (fs : List PlacedField) : allBits fs &&& allMask fs = allBits fs := by
  induction fs with
  | nil => rfl
  | cons f fs ih => exact or_and_or_of_and f.bits_and_mask ih

theorem and_allMask_eq_zero {fs : List PlacedField} (h : ∀ f ∈ fs, m &&& f.mask = 0#32) :
    m &&& allMask fs = 0#32 := by
  induction fs with
  | nil => exact BitVec.and_zero
  | cons f fs ih =>
    obtain ⟨hf, hfs⟩ := List.forall_mem_cons.1 h
    rw [allMask, List.foldr_cons, BitVec.and_or_distrib_left, hf]
    exact BitVec.zero_or.trans (ih hfs)

/-- Reading fields listed from the highest down, none meeting another, is one comparison under the mask of all. -/
theorem and_allMask_eq_allBits_iff {fs : List PlacedField} (w : Word) (hfit : ∀ f ∈ fs, f.lo + f.width ≤ 32)
    (hdesc : fs.Pairwise fun f g => g.lo + g.width ≤ f.lo) :
    w &&& allMask fs = allBits fs ↔ ∀ f ∈ fs, f.ReadFrom w := by
  induction fs with
  | nil => simp [allMask, allBits]
  | cons f fs ih =>
    obtain ⟨hf, hfs⟩ := List.forall_mem_cons.1 hfit
    obtain ⟨hbelow, hdesc'⟩ := List.pairwise_cons.1 hdesc
    have hapart := and_allMask_eq_zero fun g hg => mask_and_mask_of_below (hbelow g hg)
    rw [List.forall_mem_cons, ← ih hfs hdesc', ← f.and_mask_eq_bits_iff w hf]
    exact and_or_eq_or_iff f.bits_and_mask (allBits_and_allMask fs) hapart

end SeveralFields

/-! ### The fields the decoder reads -/

section NamedFields

variable (w : Word)

@[simp] theorem readFrom_op1 (v : BitVec 8) : ReadFrom ⟨8, 0, v⟩ w ↔ fieldOp1 w = v := .rfl
@[simp] theorem readFrom_11_8 (v : BitVec 4) : ReadFrom ⟨4, 8, v⟩ w ↔ field11_8 w = v := .rfl
@[simp] theorem readFrom_15_12 (v : BitVec 4) : ReadFrom ⟨4, 12, v⟩ w ↔ field15_12 w = v := .rfl
@[simp] theorem readFrom_31_28 (v : BitVec 4) : ReadFrom ⟨4, 28, v⟩ w ↔ field31_28 w = v := .rfl
@[simp] theorem readFrom_27_22 (v : BitVec 6) : ReadFrom ⟨6, 22, v⟩ w ↔ field27_22 w = v := .rfl
@[simp] theorem readFrom_21_16 (v : BitVec 6) : ReadFrom ⟨6, 16, v⟩ w ↔ field21_16 w = v := .rfl
@[simp] theorem readFrom_27_12 (v : BitVec 16) : ReadFrom ⟨16, 12, v⟩ w ↔ field27_12 w = v := .rfl

end NamedFields

end PlacedField

theorem bitVec_append_eq_iff {m n : Nat} {x : BitVec m} {y : BitVec n} {z : BitVec (m + n)} :
    x ++ y = z ↔ x = z.extractLsb' n m ∧ y = z.extractLsb' 0 n := by
  constructor
  · rintro rfl
    exact ⟨BitVec.extractLsb'_append_eq_left.symm, BitVec.extractLsb'_append_eq_right.symm⟩
  · rintro ⟨rfl, rfl⟩
    exact BitVec.extractLsb'_append_extractLsb'

/-- BO: the two pieces of `off10` (R63). -/
theorem fieldOff10_eq_iff {w : Word} {o : BitVec 10} :
    fieldOff10 w = o ↔ field31_28 w = o.extractLsb' 6 4 ∧ field21_16 w = o.extractLsb' 0 6 :=
  bitVec_append_eq_iff (m := 4) (n := 6)

/-- BOL: the three pieces of `off16` (R63). -/
theorem fieldOff16_eq_iff {w : Word} {o : BitVec 16} :
    fieldOff16 w = o ↔ field27_22 w = o.extractLsb' 10 6 ∧
      field31_28 w = o.extractLsb' 6 4 ∧ field21_16 w = o.extractLsb' 0 6 := by
  have hlow : field31_28 w ++ field21_16 w = o.extractLsb' 0 10 ↔
      field31_28 w = o.extractLsb' 6 4 ∧ field21_16 w = o.extractLsb' 0 6 := by
    rw [bitVec_append_eq_iff (m := 4) (n := 6), BitVec.extractLsb'_extractLsb'_of_le (by decide),
      BitVec.extractLsb'_extractLsb'_of_le (by decide)]
  rw [← hlow]
  exact bitVec_append_eq_iff (m := 6) (n := 10)

/-! ## The fields of an instruction -/

/-- The fields of the instruction's row, opcode and operands, highest first (R62 to R64). -/
def Instr.fields : Instr → List PlacedField
  | .movSrc a c => [⟨4, 12, c⟩, ⟨4, 8, a⟩, ⟨8, 0, 0x82⟩]
  | .movSrr a b => [⟨4, 12, b⟩, ⟨4, 8, a⟩, ⟨8, 0, 0x02⟩]
  | .movESrc a c => [⟨4, 12, c⟩, ⟨4, 8, a⟩, ⟨8, 0, 0xD2⟩]
  | .retSr => [⟨4, 12, 0x9⟩, ⟨8, 0, 0x00⟩]
  | .ldWSlr c b => [⟨4, 12, b⟩, ⟨4, 8, c⟩, ⟨8, 0, 0x54⟩]
  | .movRlc c k => [⟨4, 28, c⟩, ⟨16, 12, k⟩, ⟨8, 0, 0x3B⟩]
  | .retSys => [⟨6, 22, 0x06⟩, ⟨8, 0, 0x0D⟩]
  | .ldWBo a b o =>
    [⟨4, 28, o.extractLsb' 6 4⟩, ⟨6, 22, 0x24⟩, ⟨6, 16, o.extractLsb' 0 6⟩,
      ⟨4, 12, b⟩, ⟨4, 8, a⟩, ⟨8, 0, 0x09⟩]
  | .ldWBol a b o =>
    [⟨4, 28, o.extractLsb' 6 4⟩, ⟨6, 22, o.extractLsb' 10 6⟩, ⟨6, 16, o.extractLsb' 0 6⟩,
      ⟨4, 12, b⟩, ⟨4, 8, a⟩, ⟨8, 0, 0x19⟩]

open PlacedField

/-- R62, R63: the encoder writes these fields and nothing else. -/
theorem encodeWord_eq_allBits (i : Instr) : encodeWord i = allBits i.fields := by
  cases i <;>
    simp only [encodeWord, Instr.fields, allBits, List.foldr_cons, List.foldr_nil, bits, BitVec.or_assoc] <;> rfl

/-- R55, D6: the bits that are not don't-care are those of these fields. -/
theorem careMask_eq_allMask (i : Instr) : careMask i = allMask i.fields := by
  cases i <;> simp [careMask, Instr.fields, allMask, mask, place]

/-- The fields stand inside the word. -/
theorem Instr.fields_fit (i : Instr) : ∀ f ∈ i.fields, f.lo + f.width ≤ 32 := by
  cases i <;> simp [Instr.fields]

/-- Each field ends below the ones before it. -/
theorem Instr.fields_descend (i : Instr) : i.fields.Pairwise fun f g => g.lo + g.width ≤ f.lo := by
  cases i <;> simp [Instr.fields]

/-! ## Dispatch, one equation per row (R64) -/

section Rows

variable {w : Word}

theorem decode16_movSrc (h : fieldOp1 w = 0x82) :
    decode16 w = .ok (.movSrc (field11_8 w) (field15_12 w)) := by simp [decode16, h]

theorem decode16_movSrr (h : fieldOp1 w = 0x02) :
    decode16 w = .ok (.movSrr (field11_8 w) (field15_12 w)) := by simp [decode16, h]

theorem decode16_movESrc (h : fieldOp1 w = 0xD2) :
    decode16 w = .ok (.movESrc (field11_8 w) (field15_12 w)) := by simp [decode16, h]

theorem decode16_retSr (h : fieldOp1 w = 0x00) (h2 : field15_12 w = 0x9) : decode16 w = .ok .retSr := by
  simp [decode16, h, h2]

theorem decode16_ldWSlr (h : fieldOp1 w = 0x54) :
    decode16 w = .ok (.ldWSlr (field11_8 w) (field15_12 w)) := by simp [decode16, h]

theorem decode32_movRlc (h : fieldOp1 w = 0x3B) :
    decode32 w = .ok (.movRlc (field31_28 w) (field27_12 w)) := by simp [decode32, h]

theorem decode32_retSys (h : fieldOp1 w = 0x0D) (h2 : field27_22 w = 0x06) : decode32 w = .ok .retSys := by
  simp [decode32, h, h2]

theorem decode32_ldWBo (h : fieldOp1 w = 0x09) (h2 : field27_22 w = 0x24) :
    decode32 w = .ok (.ldWBo (field11_8 w) (field15_12 w) (fieldOff10 w)) := by simp [decode32, h, h2]

theorem decode32_ldWBol (h : fieldOp1 w = 0x19) :
    decode32 w = .ok (.ldWBol (field11_8 w) (field15_12 w) (fieldOff16 w)) := by simp [decode32, h]

/-- The branch of the dispatch that answers has compared the row's opcode fields (16-bit rows). -/
theorem fields_of_decode16 {i : Instr} (h : decode16 w = .ok i) : ∀ f ∈ i.fields, f.ReadFrom w := by
  unfold decode16 at h
  split_ifs at h with hmovSrc hmovSrr hmovESrc hretSr hldWSlr <;> cases h
  · simp [Instr.fields, hmovSrc]
  · simp [Instr.fields, hmovSrr]
  · simp [Instr.fields, hmovESrc]
  · simp [Instr.fields, hretSr]
  · simp [Instr.fields, hldWSlr]

/-- The branch of the dispatch that answers has compared the row's opcode fields (32-bit rows). -/
theorem fields_of_decode32 {i : Instr} (h : decode32 w = .ok i) : ∀ f ∈ i.fields, f.ReadFrom w := by
  unfold decode32 at h
  split_ifs at h with hmovRlc hretSys hldWBo hldWBol <;> cases h
  · simp [Instr.fields, hmovRlc]
  · simp [Instr.fields, hretSys]
  · obtain ⟨hhi, hlo⟩ := fieldOff10_eq_iff.1 (rfl : fieldOff10 w = _)
    simp [Instr.fields, hldWBo, ← hhi, ← hlo]
  · obtain ⟨hhi, hmid, hlo⟩ := fieldOff16_eq_iff.1 (rfl : fieldOff16 w = _)
    simp [Instr.fields, hldWBol, ← hhi, ← hmid, ← hlo]

/-- The opcode fields of a row decide every test of the dispatch, so its own equation answers. -/
theorem decodeWord_of_fields {i : Instr} (h : ∀ f ∈ i.fields, f.ReadFrom w) :
    decodeWord i.length w = .ok i := by
  cases i <;> simp only [Instr.fields, List.forall_mem_cons, ReadFrom] at h
  case movSrc a c =>
    obtain ⟨rfl, rfl, hop, -⟩ := h
    exact decode16_movSrc hop
  case movSrr a b =>
    obtain ⟨rfl, rfl, hop, -⟩ := h
    exact decode16_movSrr hop
  case movESrc a c =>
    obtain ⟨rfl, rfl, hop, -⟩ := h
    exact decode16_movESrc hop
  case retSr =>
    obtain ⟨hop2, hop, -⟩ := h
    exact decode16_retSr hop hop2
  case ldWSlr c b =>
    obtain ⟨rfl, rfl, hop, -⟩ := h
    exact decode16_ldWSlr hop
  case movRlc c k =>
    obtain ⟨rfl, rfl, hop, -⟩ := h
    exact decode32_movRlc hop
  case retSys =>
    obtain ⟨hop2, hop, -⟩ := h
    exact decode32_retSys hop hop2
  case ldWBo a b o =>
    obtain ⟨hhi, hop2, hlo, rfl, rfl, hop, -⟩ := h
    rw [← fieldOff10_eq_iff.2 ⟨hhi, hlo⟩]
    exact decode32_ldWBo hop hop2
  case ldWBol a b o =>
    obtain ⟨hmid, hhi, hlo, rfl, rfl, hop, -⟩ := h
    rw [← fieldOff16_eq_iff.2 ⟨hhi, hmid, hlo⟩]
    exact decode32_ldWBol hop

end Rows

/-- R55, R114: a word decodes to an instruction exactly if it shows the instruction's fields. -/
theorem decodeWord_eq_ok_iff (i : Instr) (w : Word) :
    decodeWord i.length w = .ok i ↔ ∀ f ∈ i.fields, f.ReadFrom w := by
  refine ⟨fun h => ?_, decodeWord_of_fields⟩
  unfold decodeWord at h
  split at h
  · exact fields_of_decode32 h
  · exact fields_of_decode16 h

/-- Settles O33: both sides say that the word shows the instruction's fields. -/
theorem wordsOfAnInstructionAreItsEncodingUpToDontCare :
    Obligations.WordsOfAnInstructionAreItsEncodingUpToDontCare := by
  intro i w
  rw [decodeWord_eq_ok_iff, careMask_eq_allMask, encodeWord_eq_allBits,
    and_allMask_eq_allBits_iff w i.fields_fit i.fields_descend]

/-! ## The round trip: fetching an encoded instruction -/

theorem encodeWord_and_careMask (i : Instr) : encodeWord i &&& careMask i = encodeWord i := by
  rw [careMask_eq_allMask, encodeWord_eq_allBits, allBits_and_allMask]

theorem decodeWord_encodeWord (i : Instr) : decodeWord i.length (encodeWord i) = .ok i :=
  (wordsOfAnInstructionAreItsEncodingUpToDontCare i _).2 (encodeWord_and_careMask i)

theorem careMask_lt (i : Instr) : (careMask i).toNat < 256 ^ i.length := by
  cases i <;> simp [careMask, Instr.length]

/-- The word has no bit outside the bytes of its row (R52). -/
theorem encodeWord_lt (i : Instr) : (encodeWord i).toNat < 256 ^ i.length := by
  rw [← encodeWord_and_careMask, BitVec.toNat_and]
  exact Nat.and_le_right.trans_lt (careMask_lt i)

/-- Bit 0 of the word names the length, by the law of each constructor (R51). -/
theorem encodeWord_lengthBit (i : Instr) : (encodeWord i).getLsbD 0 = (i.length == 4) := by
  cases i with
  | movSrc a c => exact (Laws.EncodingLength.movSrc a c).2
  | movSrr a b => exact (Laws.EncodingLength.movSrr a b).2
  | movESrc a c => exact (Laws.EncodingLength.movESrc a c).2
  | retSr => exact Laws.EncodingLength.retSr.2
  | ldWSlr c b => exact (Laws.EncodingLength.ldWSlr c b).2
  | movRlc c k => exact (Laws.EncodingLength.movRlc c k).2
  | retSys => exact Laws.EncodingLength.retSys.2
  | ldWBo a b o => exact (Laws.EncodingLength.ldWBo a b o).2
  | ldWBol a b o => exact (Laws.EncodingLength.ldWBol a b o).2

/-- R38: a read inside the encoding is that many low bytes of the word, whatever follows. -/
theorem memRead_encode (i : Instr) (rest : List Byte) {n : Nat} (hn : n ≤ i.length) :
    memRead (encode i ++ rest) 0 n = some ((encodeWord i).toNat % 256 ^ n) := by
  have hlen : n ≤ (encode i).length := hn.trans_eq (encode_length i).symm
  have hwin : 0 + n ≤ (encode i ++ rest).length := by
    rw [List.length_append]; omega
  rw [memRead, if_pos hwin, List.drop_zero, List.take_append_of_le_length hlen, encode, leBytes_take _ hn,
    leValue_leBytes]

theorem lenClass_encodeWord (i : Instr) : lenClass ((encodeWord i).toNat % 256 ^ 2) = i.length := by
  have hbit : ((encodeWord i).toNat % 256 ^ 2).testBit 0 = (i.length == 4) := by
    rw [← encodeWord_lengthBit, show 256 ^ 2 = 2 ^ 16 from rfl, Nat.testBit_mod_two_pow]
    rfl
  rw [lenClass_eq_ite_testBit, hbit]
  rcases i.length_eq with h | h <;> rw [h] <;> rfl

/-- The fetch of an encoded instruction is its word, whatever bytes follow. -/
theorem fetchWord_encode (i : Instr) (rest : List Byte) :
    fetchWord (encode i ++ rest) = .ok (i.length, encodeWord i) := by
  have hword : memRead (encode i ++ rest) 0 i.length = some (encodeWord i).toNat := by
    rw [memRead_encode i rest (Nat.le_refl _), Nat.mod_eq_of_lt (encodeWord_lt i)]
  have hofNat : BitVec.ofNat 32 (encodeWord i).toNat = encodeWord i := by
    rw [BitVec.ofNat_toNat, BitVec.setWidth_eq]
  rcases i.length_eq with h | h
  · rw [h] at hword
    rw [fetchWord_of_lenClass_two hword ?_, h, hofNat]
    rw [← h, ← lenClass_encodeWord i, Nat.mod_eq_of_lt (h ▸ encodeWord_lt i)]
  · rw [h] at hword
    rw [fetchWord_of_lenClass_four (memRead_encode i rest (by omega)) ((lenClass_encodeWord i).trans h) hword, h, hofNat]

/-- Settles O32: the fetch returns the instruction's own word, which decodes to it, and the rest is what the
encoding's length leaves. -/
theorem decodeOfEncodeIsTheInstruction : Obligations.DecodeOfEncodeIsTheInstruction := by
  intro i rest
  simp only [decodeBytes, fetchWord_encode, decodeWord_encodeWord, List.drop_left' (encode_length i)]

end Sys2Proof
end

section
/-! PROOFS. The encoding family (30_encoding.md), the dispatch tables: what dispatch selects (O38), the conditions on
a table (O46, O47), and what they give (O42, O45). -/

namespace Sys2Proof

/-! ## The conditions of R56 on one entry -/

section EntryConditions

variable {M : Type} (e : Entry M)

theorem Entry.w2_iff : e.w2 = true ↔
    e.mask.toNat < 2 ^ (8 * e.len) ∧ e.pat.toNat < 2 ^ (8 * e.len) ∧ e.pat &&& ~~~e.mask = 0 := by
  simp only [Entry.w2, Bool.and_eq_true, decide_eq_true_eq, beq_iff_eq, and_assoc]

theorem Entry.w3_iff : e.w3 = true ↔
    e.mask.getLsbD 0 = true ∧ (e.pat.getLsbD 0 = true ↔ e.len = 4) := by
  rw [Entry.w3, Bool.and_eq_true]
  exact and_congr_right fun _ => by rw [beq_iff_eq, Bool.eq_iff_iff, beq_iff_eq]

theorem Mnemonic.isReal_eq_false_iff {m : Mnemonic M} : m.isReal = false ↔ m = .invalid ∨ m = .ending := by
  cases m <;> simp [Mnemonic.isReal]

theorem Piece.inside_iff {len : Nat} {p : Piece} : p.inside len = true ↔ p.lo ≤ p.hi ∧ p.hi < 8 * len := by
  simp only [Piece.inside, Bool.and_eq_true, decide_eq_true_eq]

theorem widthOk_iff {ps : List Piece} {x : Extension} :
    widthOk ps x = true ↔ 1 ≤ totalWidth ps ∧ totalWidth ps ≤ if x = .signed then 32 else 31 := by
  cases x <;> simp [widthOk]

theorem all_immediateOk_iff {ds : List Descriptor} : ds.all Descriptor.immediateOk = true ↔
    ∀ ps x, .immOp ps x ∈ ds →
      ps ≠ [] ∧ 1 ≤ totalWidth ps ∧ totalWidth ps ≤ if x = .signed then 32 else 31 := by
  rw [List.all_eq_true]
  constructor
  · intro h ps x hd
    simpa [Descriptor.immediateOk, widthOk_iff] using h _ hd
  · intro h d hd
    cases d with
    | immOp ps x => simpa [Descriptor.immediateOk, widthOk_iff] using h ps x hd
    | regOp c f => rfl
    | memOp c f ps x => rfl

theorem all_displacementOk_iff {ds : List Descriptor} : ds.all Descriptor.displacementOk = true ↔
    ∀ c f ps x, .memOp c f ps x ∈ ds → ps ≠ [] →
      1 ≤ totalWidth ps ∧ totalWidth ps ≤ if x = .signed then 32 else 31 := by
  rw [List.all_eq_true]
  constructor
  · intro h c f ps x hd
    simpa [Descriptor.displacementOk, widthOk_iff, or_iff_not_imp_left] using h _ hd
  · intro h d hd
    cases d with
    | memOp c f ps x =>
      simpa [Descriptor.displacementOk, widthOk_iff, or_iff_not_imp_left] using h c f ps x hd
    | regOp c f => rfl
    | immOp ps x => rfl

/-! ### Each defect name is its condition broken -/

theorem Entry.w1_mem_defects_iff : .w1 ∈ e.defects ↔ ¬ (e.len = 2 ∨ e.len = 4) := by
  simp [Entry.defects, Config.lengths]

theorem Entry.w2_mem_defects_iff : .w2 ∈ e.defects ↔
    ¬ (e.mask.toNat < 2 ^ (8 * e.len) ∧ e.pat.toNat < 2 ^ (8 * e.len) ∧ e.pat &&& ~~~e.mask = 0) := by
  rw [← Entry.w2_iff]
  simp [Entry.defects]

theorem Entry.w3_mem_defects_iff :
    .w3 ∈ e.defects ↔ ¬ (e.mask.getLsbD 0 = true ∧ (e.pat.getLsbD 0 = true ↔ e.len = 4)) := by
  rw [← Entry.w3_iff]
  simp [Entry.defects]

theorem Entry.w4_mem_defects_iff : .w4 ∈ e.defects ↔ e.mnemonic = .invalid ∨ e.mnemonic = .ending := by
  simp [Entry.defects, ← Mnemonic.isReal_eq_false_iff]

theorem Entry.w5_mem_defects_iff : .w5 ∈ e.defects ↔ 8 < e.slots.length := by
  rw [← Nat.not_le, show 8 = Config.maxOperands from rfl]
  simp [Entry.defects]

theorem Entry.w6_mem_defects_iff :
    .w6 ∈ e.defects ↔ ¬ ∀ d ∈ e.slots, ∀ p ∈ d.pieces, p.lo ≤ p.hi ∧ p.hi < 8 * e.len := by
  simp [Entry.defects, ← Piece.inside_iff]

theorem Entry.w8_mem_defects_iff : .w8 ∈ e.defects ↔ ¬ ∀ ps x, .immOp ps x ∈ e.slots →
    ps ≠ [] ∧ 1 ≤ totalWidth ps ∧ totalWidth ps ≤ if x = .signed then 32 else 31 := by
  rw [← all_immediateOk_iff]
  simp [Entry.defects]

theorem Entry.w9_mem_defects_iff : .w9 ∈ e.defects ↔ ¬ ∀ c f ps x, .memOp c f ps x ∈ e.slots →
    ps ≠ [] → 1 ≤ totalWidth ps ∧ totalWidth ps ≤ if x = .signed then 32 else 31 := by
  rw [← all_displacementOk_iff]
  simp [Entry.defects]

theorem Entry.w11_mem_defects_iff : .w11 ∈ e.defects ↔ e.len = 2 ∧ e.pat = 0 := by
  simp [Entry.defects]

theorem sublist_of_ite {α : Type} {c : Prop} [Decidable c] {xs ys zs : List α} (hx : xs.Sublist zs)
    (hy : ys.Sublist zs) : (if c then xs else ys).Sublist zs := by
  split
  · exact hx
  · exact hy

/-- The defects stand in the order of the rule's table, each at most once. -/
theorem Entry.defects_sublist : e.defects.Sublist [.w1, .w2, .w3, .w4, .w5, .w6, .w8, .w9, .w11] := by
  rw [Entry.defects, show [TableDefect.w1, .w2, .w3, .w4, .w5, .w6, .w8, .w9, .w11] =
    [.w1] ++ [.w2] ++ [.w3] ++ [.w4] ++ [.w5] ++ [.w6] ++ [.w8] ++ [.w9] ++ [.w11] from rfl]
  refine .append ?_ (sublist_of_ite (.refl _) (List.nil_sublist _))
  iterate 7 refine .append ?_ (sublist_of_ite (List.nil_sublist _) (.refl _))
  exact sublist_of_ite (List.nil_sublist _) (.refl _)

end EntryConditions

/-! ## Well-formed tables and the refusal of the others (R56, R205) -/

section Tables

variable {M : Type} {t t' : Table M}

theorem Table.wf_iff : Table.wf t = true ↔ ∀ e ∈ t, e.defects = [] := by
  simp only [Table.wf, List.all_eq_true, List.isEmpty_iff]

theorem Table.configure_of_wf (h : Table.wf t = true) : Table.configure t = .ok t := if_pos h

theorem Table.configure_of_not_wf (h : Table.wf t = false) :
    Table.configure t = .error (t.flatMap Entry.defects) := if_neg (ne_true_of_eq_false h)

theorem Table.flatMap_defects_ne_nil (h : Table.wf t = false) : t.flatMap Entry.defects ≠ [] := by
  intro hnil
  exact ne_true_of_eq_false h (Table.wf_iff.2 (List.flatMap_eq_nil_iff.1 hnil))

/-! ## Unambiguous tables (W10) -/

/-- Some bit both masks name tells the two patterns apart. -/
theorem and_and_xor_ne_zero_iff {m n a b : Word} : m &&& n &&& (a ^^^ b) ≠ 0 ↔
    ∃ i, m.getLsbD i = true ∧ n.getLsbD i = true ∧ a.getLsbD i ≠ b.getLsbD i := by
  rw [← not_iff_not, not_not, not_exists]
  have hbit (i : Nat) : (m &&& n &&& (a ^^^ b)).getLsbD i = false ↔
      ¬ (m.getLsbD i = true ∧ n.getLsbD i = true ∧ a.getLsbD i ≠ b.getLsbD i) := by
    rw [BitVec.getLsbD_and, BitVec.getLsbD_and, BitVec.getLsbD_xor, ← Bool.not_eq_true]
    simp [and_assoc]
  simp only [← hbit]
  constructor
  · intro h i
    rw [h]; exact BitVec.getLsbD_zero
  · intro h
    exact BitVec.eq_of_getLsbD_eq fun i _ => (h i).trans BitVec.getLsbD_zero.symm

theorem Entry.disjoint_iff {e f : Entry M} : e.disjoint f = true ↔ (e.len = f.len →
    ∃ i, e.mask.getLsbD i = true ∧ f.mask.getLsbD i = true ∧ e.pat.getLsbD i ≠ f.pat.getLsbD i) := by
  rw [← and_and_xor_ne_zero_iff]
  simp [Entry.disjoint, or_iff_not_imp_left]

theorem Table.unambiguous_iff_pairwise :
    Table.unambiguous t = true ↔ t.Pairwise fun e f => e.disjoint f = true := by
  induction t with
  | nil => simp [Table.unambiguous]
  | cons e t ih => simp [Table.unambiguous, ih]

theorem Entry.disjoint_symm {e f : Entry M} : e.disjoint f = true → f.disjoint e = true := by
  rw [Entry.disjoint_iff, Entry.disjoint_iff]
  intro h hlen
  obtain ⟨i, he, hf, hne⟩ := h hlen.symm
  exact ⟨i, hf, he, hne.symm⟩

theorem Table.unambiguous_of_perm (hp : t.Perm t') (h : Table.unambiguous t = true) :
    Table.unambiguous t' = true := by
  rw [Table.unambiguous_iff_pairwise] at h ⊢
  exact hp.pairwise h Entry.disjoint_symm

end Tables

namespace Machine

/-! ## Dispatch (R55, R114) -/

section Dispatch

variable {M : Type} {t t' : Table M} {e f : Entry M} {len : Nat} {w w' : Word}

theorem Entry.matches_iff : Entry.matches e len w = true ↔ e.len = len ∧ w &&& e.mask = e.pat := by
  simp only [Entry.matches, Bool.and_eq_true, beq_iff_eq]

/-- R55: the first match in list order. -/
theorem dispatch_eq_some_iff : dispatch t len w = some e ↔
    ∃ before after, t = before ++ e :: after ∧ (e.len = len ∧ w &&& e.mask = e.pat) ∧
      ∀ f ∈ before, ¬ (f.len = len ∧ w &&& f.mask = f.pat) := by
  simp only [dispatch, List.find?_eq_some_iff_append, Bool.not_eq_true', ← Bool.not_eq_true, Entry.matches_iff]
  constructor
  · rintro ⟨hm, before, after, ht, hb⟩
    exact ⟨before, after, ht, hm, hb⟩
  · rintro ⟨before, after, ht, hm, hb⟩
    exact ⟨hm, before, after, ht, hb⟩

/-- R55: unrecognised exactly if no entry matches. -/
theorem dispatch_eq_none_iff :
    dispatch t len w = none ↔ ∀ e ∈ t, ¬ (e.len = len ∧ w &&& e.mask = e.pat) := by
  simp only [dispatch, List.find?_eq_none, Entry.matches_iff]

theorem gather_congr {ps : List Piece} (h : ∀ p ∈ ps, extract w p = extract w' p) :
    gather w ps = gather w' ps :=
  List.foldl_ext _ _ _ fun _ p hp => by rw [h p hp]

/-- A slot sees the word through its own pieces only. -/
theorem build_congr (d : Descriptor) (h : ∀ p ∈ d.pieces, extract w p = extract w' p) :
    build d w = build d w' := by
  cases d with
  | regOp cls f => simp only [build, h f List.mem_cons_self]
  | immOp ps x => simp only [build, gather_congr (ps := ps) h]
  | memOp cls f ps x =>
    obtain ⟨hf, hps⟩ := List.forall_mem_cons.1 h
    simp only [build, hf, gather_congr hps]

/-- W11: an entry that matched the all-zero halfword would have `w11` among its defects. -/
theorem not_matches_zero_of_defects_nil (hwf : e.defects = []) :
    ¬ (e.len = 2 ∧ (0 : Word) &&& e.mask = e.pat) := by
  rintro ⟨hlen, hpat⟩
  have hw11 : .w11 ∈ e.defects := e.w11_mem_defects_iff.2 ⟨hlen, hpat.symm.trans BitVec.zero_and⟩
  rw [hwf] at hw11
  cases hw11

theorem decode_of_dispatch_none {win : List Byte} (addr : Addr) (hf : fetchWord win = .ok (len, w))
    (hd : dispatch t len w = none) : decode t win addr = .ok invalidRecord len := by
  simp only [decode, hf, decodeRecord, hd]

/-- W10: a word that matched two entries would show one value at the bit that tells them apart. -/
theorem not_matches_of_disjoint (hdis : e.disjoint f = true) (he : Entry.matches e len w = true) :
    Entry.matches f len w = false := by
  rw [← Bool.not_eq_true]
  intro hf
  obtain ⟨hle, hpe⟩ := Entry.matches_iff.1 he
  obtain ⟨hlf, hpf⟩ := Entry.matches_iff.1 hf
  obtain ⟨i, hei, hfi, hne⟩ := Entry.disjoint_iff.1 hdis (hle.trans hlf.symm)
  refine hne ?_
  rw [← hpe, ← hpf, BitVec.getLsbD_and, BitVec.getLsbD_and, hei, hfi]

/-- In an unambiguous table a word is dispatched to the entry it matches, wherever it stands. -/
theorem dispatch_eq_some_iff_of_unambiguous (h : Table.unambiguous t = true) :
    dispatch t len w = some e ↔ e ∈ t ∧ Entry.matches e len w = true := by
  constructor
  · intro hd
    exact ⟨List.mem_of_find?_eq_some hd, List.find?_some (p := fun e => Entry.matches e len w) hd⟩
  · rintro ⟨he, hm⟩
    obtain ⟨before, after, rfl⟩ := List.append_of_mem he
    obtain ⟨-, -, hbefore⟩ := List.pairwise_append.1 (Table.unambiguous_iff_pairwise.1 h)
    refine dispatch_eq_some_iff.2 ⟨before, after, rfl, Entry.matches_iff.1 hm, fun f hf => ?_⟩
    rw [← Entry.matches_iff, Bool.not_eq_true]
    exact not_matches_of_disjoint (Entry.disjoint_symm (hbefore f hf e List.mem_cons_self)) hm

/-- Law L9 at the dispatch. -/
theorem dispatch_perm (hp : t.Perm t') (h : Table.unambiguous t = true) :
    dispatch t len w = dispatch t' len w := by
  apply Option.ext
  intro e
  rw [dispatch_eq_some_iff_of_unambiguous h,
    dispatch_eq_some_iff_of_unambiguous (Table.unambiguous_of_perm hp h), hp.mem_iff]

end Dispatch

/-! ## The statements -/

/-- Settles O38: the two answers of dispatch, and what a match and a slot read of the word. -/
theorem firstMatchingEntryIsSelected : Obligations.FirstMatchingEntryIsSelected := by
  intro M t len w
  refine ⟨fun e => dispatch_eq_some_iff, dispatch_eq_none_iff, fun e w' hmask hslots => ⟨?_, ?_⟩⟩
  · simp only [Entry.matches, hmask]
  · exact List.map_congr_left fun d hd => build_congr d (hslots d hd)

/-- Settles O42: the fetch gives the word 0 of length 2, which by W11 no entry matches. -/
theorem allZeroHalfwordIsInvalid : Obligations.AllZeroHalfwordIsInvalid := by
  intro M t rest addr hwf
  have hf : fetchWord (0#8 :: 0#8 :: rest) = .ok (2, 0) := fetchWord_of_bit_clear 0 rest rfl
  exact decode_of_dispatch_none addr hf
    (dispatch_eq_none_iff.2 fun e he => not_matches_zero_of_defects_nil (Table.wf_iff.1 hwf e he))

/-- Settles O45: by `dispatch_perm`, the only use `decode` makes of the table. -/
theorem orderOfAnUnambiguousTableIsIrrelevant : Obligations.OrderOfAnUnambiguousTableIsIrrelevant := by
  intro M t t' win addr h hp
  simp only [decode, decodeRecord, dispatch_perm hp h]

/-- W7 for `REF_TABLE` (R59, D10). -/
theorem refTable_regFields4 (j : Bool) : ∀ e ∈ refTable j, e.regFields4 = true := by
  cases j <;> decide

/-- Settles O46: a clause per defect name, the refusal, W10 bit by bit, and W7's width. -/
theorem wellFormedTablesAreThoseOfTheConditions : Obligations.WellFormedTablesAreThoseOfTheConditions := by
  refine ⟨?defects, ?refusal, ?unambiguous, refTable_regFields4⟩
  case defects =>
    exact fun M e => ⟨e.w1_mem_defects_iff, e.w2_mem_defects_iff, e.w3_mem_defects_iff, e.w4_mem_defects_iff,
      e.w5_mem_defects_iff, e.w6_mem_defects_iff, e.w8_mem_defects_iff, e.w9_mem_defects_iff,
      e.w11_mem_defects_iff, e.defects_sublist⟩
  case refusal =>
    exact fun M t => ⟨Table.wf_iff, Table.configure_of_wf,
      fun h => ⟨_, Table.flatMap_defects_ne_nil h, rfl, Table.configure_of_not_wf h⟩⟩
  case unambiguous =>
    intro M t
    simp only [Table.unambiguous_iff_pairwise, Entry.disjoint_iff]

/-- Settles O47: the two tables, evaluated. -/
theorem refTableIsWellFormedAndUnambiguous : Obligations.RefTableIsWellFormedAndUnambiguous := by
  intro j
  cases j <;> decide

end Machine
end Sys2Proof
end

section
/-! PROOFS. The Register Catalog family (40_register_catalog.md): what `resolve` answers and what it never
answers (O49, O50). -/

namespace Sys2Proof.Machine

/-! ## Numeric IDs are positions in the catalog (R22) -/

/-- A register's ID names its position in the catalog. -/
theorem id_allRegs_getElem {i : Nat} (h : i < allRegs.length) : allRegs[i].id = 1 + i := by
  have hnodup : allRegs.Nodup := by decide
  rw [RegisterId.id, hnodup.idxOf_getElem, Nat.add_comm]

/-- R22, R27: the registers of the three classes hold the IDs before the control registers'. -/
theorem id_bounds_of_mem {r : RegisterId} (h : r ∈ gprRegs ++ addrRegs ++ extRegs) :
    1 ≤ r.id ∧ r.id ≤ 40 := by
  have hidx : allRegs.idxOf r < (gprRegs ++ addrRegs ++ extRegs).length := by
    rw [allRegs, List.idxOf_append_of_mem h]
    exact List.idxOf_lt_length_of_mem h
  exact ⟨Nat.le_add_left 1 _, hidx⟩

theorem resolvable_iff {r : RegisterId} :
    r.resolvable = true ↔ r ≠ .psw ∧ r ≠ .pcxi ∧ r ≠ .pc ∧ r ≠ .fcx := by
  simp [RegisterId.resolvable, controlRegs]

/-! ## What a class's list answers (R80, R84) -/

section Lookup

variable {regs : List RegisterId} {n : Nat}

theorem lookupReg_of_lt (h : n < regs.length) : lookupReg regs n = .ok regs[n] := by
  rw [lookupReg, List.getElem?_eq_getElem h]

theorem lookupReg_of_length_le (h : regs.length ≤ n) : lookupReg regs n = .error .unknownRegister := by
  rw [lookupReg, List.getElem?_eq_none h]

/-- A class's registers are numbered in order, after those that stand before them in the catalog. -/
theorem lookupReg_id {before after : List RegisterId} (hall : allRegs = before ++ regs ++ after)
    (h : n < regs.length) : ∃ r, lookupReg regs n = .ok r ∧ r.id = 1 + before.length + n := by
  refine ⟨regs[n], lookupReg_of_lt h, ?_⟩
  have hlt : before.length + n < allRegs.length := by
    rw [hall, List.length_append, List.length_append]
    omega
  have hget : allRegs[before.length + n] = regs[n] := by
    simp [hall, h]
  rw [← hget, id_allRegs_getElem hlt, Nat.add_assoc]

end Lookup

theorem resolve_ext_of_even {n : Nat} (h : n % 2 = 0) : resolve .ext n = lookupReg extRegs (n / 2) :=
  if_pos h

/-- R83: an odd number names no pair, and from 16 on an even one lies past the last pair. -/
theorem resolve_ext_unknown {n : Nat} (h : n % 2 = 1 ∨ 16 ≤ n) : resolve .ext n = .error .unknownRegister := by
  rcases Nat.mod_two_eq_zero_or_one n with heven | hodd
  · have hpast : extRegs.length ≤ n / 2 := by
      rw [show extRegs.length = 8 from rfl]
      omega
    rw [resolve_ext_of_even heven, lookupReg_of_length_le hpast]
  · exact resolve_ext_odd n hodd

/-! ## The statements -/

/-- Settles O50: an answer stands in one of the three classes' lists, which hold no control register and end
at ID 40; the only other case is `UnknownRegister`. -/
theorem resolveNeverAnswersAControlRegister : Obligations.ResolveNeverAnswersAControlRegister := by
  intro cls raw
  rcases resolve_cases cls raw with ⟨r, hr, hmem⟩ | herr
  · rw [hr]
    refine ⟨?_, fun e he => nomatch he⟩
    rintro _ ⟨⟩
    obtain ⟨hpsw, hpcxi, hpc, hfcx⟩ := resolvable_iff.1 (resolvable_of_mem hmem)
    exact ⟨hpsw, hpcxi, hpc, hfcx, id_bounds_of_mem hmem⟩
  · rw [herr]
    exact ⟨fun r hr => (nomatch hr), fun e he => (Except.error.inj he).symm⟩

/-- Settles O49: inside its list each class answers by position in the catalog, with 0, 16 and 32 registers
before it; outside it, `UnknownRegister`. -/
theorem resolveNamesTheRegisterOfItsClass : Obligations.ResolveNamesTheRegisterOfItsClass := by
  refine ⟨?gpr, fun n => lookupReg_of_length_le (regs := gprRegs), ?addr,
    fun n => lookupReg_of_length_le (regs := addrRegs), ?ext, fun n => resolve_ext_unknown⟩
  case gpr =>
    exact fun n h => lookupReg_id (before := []) (after := addrRegs ++ extRegs ++ controlRegs) rfl
      (Nat.lt_succ_of_le h)
  case addr =>
    exact fun n h => lookupReg_id (before := gprRegs) (after := extRegs ++ controlRegs) rfl
      (Nat.lt_succ_of_le h)
  case ext =>
    intro n h heven
    rw [resolve_ext_of_even heven]
    exact lookupReg_id (before := gprRegs ++ addrRegs) (after := controlRegs) rfl
      (Nat.lt_succ_of_le (Nat.div_le_div_right h))

end Sys2Proof.Machine
end

section
/-! PROOFS. The Operand Builder family (41_operand_builder.md): the bit fields and their concatenation (O52, O53),
the two extensions (O54, O55), and what `build` answers (O56, O57). -/

namespace Sys2Proof.Machine

/-! ## One bit field (R90) -/

theorem extract_eq_shiftRight_mod (w : Word) (p : Piece) : extract w p = w.toNat >>> p.lo % 2 ^ p.width := by
  rw [extract, Nat.shiftRight_eq_div_pow]

theorem testBit_extract (w : Word) (p : Piece) (i : Nat) :
    (extract w p).testBit i = (decide (i < p.width) && w.getLsbD (p.lo + i)) := by
  rw [extract_eq_shiftRight_mod, Nat.testBit_mod_two_pow, Nat.testBit_shiftRight, BitVec.testBit_toNat]

/-- Settles O52: dividing by `2^lo` drops the bits below the field, the remainder those above it. -/
theorem extractIsTheBitField : Obligations.ExtractIsTheBitField := by
  intro w hi lo _ _
  refine ⟨extract_eq_shiftRight_mod w ⟨hi, lo⟩, fun i => ?_⟩
  rw [testBit_extract, Piece.width, decide_eq_decide.2 Nat.lt_succ_iff]

/-! ## Concatenated bit fields (R58, R91) -/

@[simp] theorem gather_nil (w : Word) : gather w [] = (0, 0) := rfl

theorem gather_append_singleton (w : Word) (ps : List Piece) (p : Piece) : gather w (ps ++ [p]) =
    ((gather w ps).1 * 2 ^ p.width + extract w p, (gather w ps).2 + p.width) :=
  List.foldl_concat ..

/-- The first piece stands above the others: each piece that `gather` appends below shifts it up once more. -/
theorem gather_cons (w : Word) (p : Piece) (ps : List Piece) : gather w (p :: ps) =
    (extract w p * 2 ^ (gather w ps).2 + (gather w ps).1, p.width + (gather w ps).2) := by
  induction ps using List.reverseRecOn with
  | nil => simp [gather]
  | append_singleton ps q ih =>
    rw [← List.cons_append, gather_append_singleton, gather_append_singleton, ih]
    ext
    · simp only
      ring
    · exact Nat.add_assoc ..

theorem gather_width (w : Word) (ps : List Piece) : (gather w ps).2 = totalWidth ps := by
  induction ps with
  | nil => rfl
  | cons p ps ih => rw [gather_cons, ih, totalWidth, totalWidth, List.map_cons, List.sum_cons]

theorem gather_lt (w : Word) (ps : List Piece) : (gather w ps).1 < 2 ^ (gather w ps).2 := by
  induction ps with
  | nil => exact Nat.one_pos
  | cons p ps ih =>
    rw [gather_cons, Nat.pow_add]
    calc extract w p * 2 ^ (gather w ps).2 + (gather w ps).1
        < (extract w p + 1) * 2 ^ (gather w ps).2 := by rw [Nat.succ_mul]; exact Nat.add_lt_add_left ih _
      _ ≤ 2 ^ p.width * 2 ^ (gather w ps).2 := Nat.mul_le_mul_right _ (extract_lt w p)

theorem gather_width_ne_zero (w : Word) {ps : List Piece} (h : ps ≠ []) : (gather w ps).2 ≠ 0 := by
  obtain ⟨p, ps, rfl⟩ := List.exists_cons_of_ne_nil h
  rw [gather_cons, Piece.width]
  omega

/-- Settles O53: the last piece by the fold's own step, the first one and the bounds by induction on the list. -/
theorem gatherConcatenatesThePieces : Obligations.GatherConcatenatesThePieces := fun w =>
  ⟨gather_nil w, gather_append_singleton w, gather_cons w,
    fun ps => ⟨gather_width w ps, gather_width w ps ▸ gather_lt w ps⟩⟩

/-! ## The two extensions (R92 to R94) -/

section Extensions

variable {n r : Nat}

/-- R92: below `2^(N−1)` is where the sign bit of an `N`-bit vector is clear. -/
theorem sextInt_eq_toInt (hn : 1 ≤ n) (hr : r < 2 ^ n) : sextInt n r = (BitVec.ofNat n r).toInt := by
  have hsign : r < 2 ^ (n - 1) ↔ 2 * r < 2 ^ n := by
    rw [← mul_pow_sub_one (Nat.ne_of_gt hn) 2, Nat.mul_lt_mul_left Nat.two_pos]
  simp only [sextInt, hsign, BitVec.toInt_eq_toNat_cond, BitVec.toNat_ofNat, Nat.mod_eq_of_lt hr]
  norm_cast

/-- R92: `sext_N` is the sign extension of an `N`-bit vector. -/
theorem sext_eq_signExtend (hn : 1 ≤ n) (hr : r < 2 ^ n) : sext n r = (BitVec.ofNat n r).signExtend 32 :=
  congrArg (BitVec.ofInt 32) (sextInt_eq_toInt hn hr)

theorem sext_toInt (hn : 1 ≤ n) (h32 : n ≤ 32) (hr : r < 2 ^ n) : (sext n r).toInt = (BitVec.ofNat n r).toInt := by
  rw [sext_eq_signExtend hn hr, BitVec.toInt_signExtend_of_le h32]

/-- R93: `zext_N` is the zero extension of an `N`-bit vector. -/
theorem zext_eq_setWidth (hr : r < 2 ^ n) : zext r = (BitVec.ofNat n r).setWidth 32 := by
  apply BitVec.eq_of_toNat_eq
  rw [zext, BitVec.toNat_setWidth, BitVec.toNat_ofNat, BitVec.toNat_ofNat, Nat.mod_eq_of_lt hr]

theorem zext_toInt (h31 : n ≤ 31) (hr : r < 2 ^ n) : (zext r).toInt = r := by
  have hlt : r < 2 ^ 31 := Nat.lt_of_lt_of_le hr (Nat.pow_le_pow_right Nat.two_pos h31)
  rw [zext, BitVec.toInt_eq_toNat_cond, BitVec.toNat_ofNat, Nat.mod_eq_of_lt (by omega), if_pos (by omega)]

/-- R94 without a piece. -/
@[simp] theorem extend_zero (x : Extension) (r : Nat) : extend x r 0 = 0 := rfl

theorem extend_signed (h : n ≠ 0) (r : Nat) : extend .signed r n = sext n r := if_neg h

theorem extend_unsigned (h : n ≠ 0) (r : Nat) : extend .unsigned r n = zext r := if_neg h

end Extensions

/-- Settles O54: value, range and bits are those of the sign extension of the `n`-bit vector of `r`. -/
theorem signExtensionIsExact : Obligations.SignExtensionIsExact := by
  intro n r hn h32 hr
  have hint := sext_toInt hn h32 hr
  refine ⟨?value, hint ▸ BitVec.le_toInt _, Int.le_sub_one_of_lt (hint ▸ BitVec.toInt_lt), ?bits, ?identity⟩
  case value => exact hint.trans (sextInt_eq_toInt hn hr).symm
  case bits =>
    intro i hi
    rw [sext_eq_signExtend hn hr, BitVec.getLsbD_signExtend, BitVec.msb_eq_getLsbD_last]
    simp only [hi, decide_true, Bool.true_and, BitVec.getLsbD_ofNat]
    split
    case isTrue hlt => rw [decide_eq_true hlt, Bool.true_and]
    case isFalse => rw [decide_eq_true (Nat.sub_one_lt_of_le hn le_rfl), Bool.true_and]
  case identity =>
    rintro rfl
    rw [sext_eq_signExtend hn hr, BitVec.signExtend_eq, BitVec.toNat_ofNat, Nat.mod_eq_of_lt hr]

/-- Settles O55: a value below `2^31` keeps its sign bit clear. -/
theorem zeroExtensionIsExact : Obligations.ZeroExtensionIsExact := by
  intro n r _ h31 hr
  have hint := zext_toInt h31 hr
  refine ⟨hint, ?upper, hint ▸ Int.natCast_nonneg r, ?bits⟩
  case upper =>
    rw [hint]
    exact Int.le_sub_one_of_lt (mod_cast hr)
  case bits =>
    intro i hi
    rw [zext_eq_setWidth hr, BitVec.getLsbD_setWidth, BitVec.getLsbD_ofNat, decide_eq_true hi, Bool.true_and]

/-! ## The three shapes (R95 to R99) -/

/-- R99: an immediate needs no register, so nothing of it can fail. -/
theorem build_immOp (ps : List Piece) (x : Extension) (w : Word) :
    build (.immOp ps x) w = .ok (.immediate (extend x (gather w ps).1 (gather w ps).2)) := rfl

section Shapes

variable {w : Word} {cls : RegClass} {f : Piece} {r : RegisterId} {e : DecodeError}

theorem build_regOp_of_resolve_ok (h : resolve cls (extract w f) = .ok r) :
    build (.regOp cls f) w = .ok (.register r) := by
  rw [build, buildRegister, h]

theorem build_memOp_of_resolve_ok (h : resolve cls (extract w f) = .ok r) (ps : List Piece)
    (x : Extension) : build (.memOp cls f ps x) w = .ok (.memory r (extend x (gather w ps).1 (gather w ps).2)) := by
  rw [build, buildMemory, h]

/-- R97 with R94: without a piece the displacement is 0. -/
theorem build_memOp_nil_of_resolve_ok (h : resolve cls (extract w f) = .ok r) (x : Extension) :
    build (.memOp cls f [] x) w = .ok (.memory r 0) := by
  rw [build_memOp_of_resolve_ok h, gather_nil, extend_zero]

theorem build_regOp_of_resolve_error (h : resolve cls (extract w f) = .error e) :
    build (.regOp cls f) w = .error e := by
  rw [build, buildRegister, h]

theorem build_memOp_of_resolve_error (h : resolve cls (extract w f) = .error e) (ps : List Piece)
    (x : Extension) : build (.memOp cls f ps x) w = .error e := by
  rw [build, buildMemory, h]

end Shapes

/-- Settles O57: `build` answers a valid operand or `UnknownRegister`, and an immediate always the former. -/
theorem buildNeverAnswersInvalid : Obligations.BuildNeverAnswersInvalid := by
  intro d w
  rcases build_cases d w with ⟨op, hop, hvalid⟩ | herr
  · rw [hop]
    refine ⟨?_, fun e he => nomatch he⟩
    rintro _ ⟨⟩
    exact hvalid
  · rw [herr]
    refine ⟨fun op hop => (nomatch hop), fun e he => ⟨(Except.error.inj he).symm, ?_⟩⟩
    rintro ps x rfl
    rw [build_immOp] at herr
    cases herr

/-- Settles O56: an equation per shape and answer of `resolve`; a list with a piece has a width, so its value is
extended, and the empty list's displacement is 0. -/
theorem buildReturnsTheOperandOfItsShape : Obligations.BuildReturnsTheOperandOfItsShape := by
  intro w cls f ps
  refine ⟨?resolves, ?fails, ?immediate⟩
  case resolves =>
    intro r hr
    refine ⟨build_regOp_of_resolve_ok hr, build_memOp_nil_of_resolve_ok hr .signed,
      build_memOp_nil_of_resolve_ok hr .unsigned, fun hps => ?_⟩
    have hwidth := gather_width_ne_zero w hps
    rw [build_memOp_of_resolve_ok hr, build_memOp_of_resolve_ok hr, extend_signed hwidth, extend_unsigned hwidth]
    exact ⟨rfl, rfl⟩
  case fails => exact fun hr => ⟨build_regOp_of_resolve_error hr, build_memOp_of_resolve_error hr ps⟩
  case immediate =>
    intro hps
    have hwidth := gather_width_ne_zero w hps
    rw [build_immOp, build_immOp, extend_signed hwidth, extend_unsigned hwidth]
    exact ⟨rfl, rfl⟩

end Sys2Proof.Machine
end

section
/-! PROOFS. The decoder family (42_instruction_decoder.md), `decode` with any table: what it can answer, said once
(`decode_cases`), the record of a matched entry (O39, O41, O31), of an unmatched word (O40), the shapes of the
result (O44) and its validity (O43). -/

namespace Sys2Proof

/-! ## The length of a fetch (R51, R111 to R113) -/

section FetchLength

variable {win : List Byte} {len : Nat} {w : Word}

/-- R112: a fetch that answers has classified the first halfword. -/
theorem exists_halfword_of_fetchWord_ok (h : fetchWord win = .ok (len, w)) :
    ∃ hw0, memRead win 0 2 = some hw0 ∧ len = lenClass hw0 := by
  cases hr : memRead win 0 2 with
  | none => rw [fetchWord_of_no_halfword hr] at h; cases h
  | some hw0 =>
    refine ⟨hw0, rfl, ?_⟩
    rcases lenClass_eq_two_or_four hw0 with hc | hc
    · rw [fetchWord_of_lenClass_two hr hc] at h
      cases h
      exact hc.symm
    · cases hr4 : memRead win 0 4 with
      | none => rw [fetchWord_of_no_word hr (hc ▸ hr4)] at h; cases h
      | some w' =>
        rw [fetchWord_of_lenClass_four hr hc hr4] at h
        cases h
        exact hc.symm

/-- R51: the fetched length is named by bit 0 of byte 0. -/
theorem fetchWord_lengthBit (h : fetchWord win = .ok (len, w)) :
    len = if (win.headD 0).getLsbD 0 then 4 else 2 := by
  obtain ⟨hw0, hr, rfl⟩ := exists_halfword_of_fetchWord_ok h
  match win with
  | [] => cases hr
  | [_] => cases hr
  | b0 :: b1 :: rest =>
    rw [memRead_two] at hr
    cases hr
    exact lenClass_halfword b0 b1

/-- R111, R113: a window shorter than its class asks for is not fetched. -/
theorem fetchWord_of_truncated (h : win.length < 2 ∨
    ((win.length = 2 ∨ win.length = 3) ∧ (win.headD 0).getLsbD 0 = true)) :
    fetchWord win = .error .bufferTooShort := by
  cases hf : fetchWord win with
  | error e => rw [fetchWord_error hf]
  | ok fetched =>
    obtain ⟨len, w⟩ := fetched
    have hbit := fetchWord_lengthBit hf
    obtain ⟨hl, hle⟩ := fetchWord_length hf
    rcases h with hlt | ⟨hlen, hset⟩
    · omega
    · rw [if_pos hset] at hbit
      omega

theorem length_le_three_of_fetchWord_error {e : DecodeError} (h : fetchWord win = .error e) :
    win.length ≤ 3 := by
  rcases fetchWord_cases win with ⟨hlt, -⟩ | ⟨-, -, hlt, -⟩ | ⟨-, -, hok⟩ | ⟨-, -, hok⟩
  · omega
  · omega
  · rw [hok] at h; cases h
  · rw [hok] at h; cases h

end FetchLength

namespace Machine

/-! ## The record of an entry (R115 to R119) -/

/-- The failure `collect` hands back is the failure of a slot (R178). -/
theorem error_mem_of_collect_error {built : List (Except DecodeError Operand)} {e : DecodeError}
    (h : collect built = .error e) : .error e ∈ built := by
  induction built with
  | nil => cases h
  | cons b built ih =>
    cases b with
    | error e' => cases h; exact List.mem_cons_self
    | ok op =>
      cases hc : collect built with
      | ok ops => rw [collect, hc] at h; cases h
      | error e' =>
        rw [collect, hc] at h
        cases h
        exact List.mem_cons_of_mem _ (ih hc)

/-- The record of a word that is dispatched to the entry `e`. -/
def entryRecord {M : Type} (e : Entry M) (w : Word) : Record M :=
  recordOf e.mnemonic e.groups (e.slots.map fun d => build d w)

section EntryRecord

variable {M : Type} {e : Entry M} {w : Word}

/-- R115 to R117: when every slot resolves, the whole record. -/
theorem entryRecord_of_map_eq {ops : List Operand} (h : (e.slots.map fun d => build d w) = ops.map .ok) :
    entryRecord e w = ⟨e.mnemonic, e.groups, ops.length, OperandSlots.ofList ops⟩ := by
  rw [entryRecord, recordOf, collect_ok.2 h]

/-- R119: no partial record. -/
theorem entryRecord_of_build_error {d : Descriptor} {x : DecodeError} (hd : d ∈ e.slots)
    (h : build d w = .error x) : entryRecord e w = invalidRecord := by
  obtain ⟨x', hx'⟩ := collect_error (h ▸ List.mem_map_of_mem hd : .error x ∈ e.slots.map fun d => build d w)
  rw [entryRecord, recordOf, hx']

/-- The slots of an entry all resolve, or one names no register. -/
theorem slots_resolve_or_unknown (e : Entry M) (w : Word) :
    (∃ ops : List Operand, (e.slots.map fun d => build d w) = ops.map .ok) ∨
    ∃ d ∈ e.slots, build d w = .error .unknownRegister := by
  cases hc : collect (e.slots.map fun d => build d w) with
  | ok ops => exact .inl ⟨ops, collect_ok.1 hc⟩
  | error x =>
    obtain ⟨d, hd, hx⟩ := List.mem_map.1 (error_mem_of_collect_error hc)
    rcases build_cases d w with ⟨op, hop, -⟩ | hunknown
    · rw [hop] at hx; cases hx
    · exact .inr ⟨d, hd, hunknown⟩

/-- Everything the record of an entry can be. -/
theorem entryRecord_cases (e : Entry M) (w : Word) :
    (∃ ops : List Operand, (e.slots.map fun d => build d w) = ops.map .ok ∧
      entryRecord e w = ⟨e.mnemonic, e.groups, ops.length, OperandSlots.ofList ops⟩) ∨
    entryRecord e w = invalidRecord := by
  rcases slots_resolve_or_unknown e w with ⟨ops, hops⟩ | ⟨d, hd, hx⟩
  · exact .inl ⟨ops, hops, entryRecord_of_map_eq hops⟩
  · exact .inr (entryRecord_of_build_error hd hx)

theorem length_of_map_eq_ok {ops : List Operand} (h : (e.slots.map fun d => build d w) = ops.map .ok) :
    ops.length = e.slots.length := by
  simpa using (congrArg List.length h).symm

/-- W4, W5: the record of a well-formed entry is valid. -/
theorem entryRecord_valid (hwf : e.defects = []) (w : Word) : (entryRecord e w).Valid := by
  have hcount : e.slots.length ≤ 8 := by
    by_contra hlt
    have hw5 := e.w5_mem_defects_iff.2 (Nat.lt_of_not_le hlt)
    rw [hwf] at hw5
    cases hw5
  have hreal : ∃ m, e.mnemonic = .real m := by
    have hw4 := e.w4_mem_defects_iff.not.1 (by rw [hwf]; exact List.not_mem_nil)
    cases hm : e.mnemonic with
    | real m => exact ⟨m, rfl⟩
    | invalid => exact absurd (.inl hm) hw4
    | ending => exact absurd (.inr hm) hw4
  obtain ⟨m, hm⟩ := hreal
  rw [entryRecord, hm]
  refine recordOf_valid m e.groups (by rwa [List.length_map]) fun op hop => ?_
  obtain ⟨d, -, hd⟩ := List.mem_map.1 hop
  rcases build_cases d w with ⟨op', hop', hvalid⟩ | hx
  · cases hop'.symm.trans hd
    exact hvalid
  · cases hx.symm.trans hd

end EntryRecord

/-! ## What a call can answer -/

section DecodeAnswers

variable {M : Type} {t : Table M} {win : List Byte} {addr : Addr} {e : Entry M} {r : Record M} {len : Nat}
  {w : Word}

theorem decode_of_dispatch_some (addr : Addr) (hf : fetchWord win = .ok (len, w))
    (hd : dispatch t len w = some e) : decode t win addr = .ok (entryRecord e w) len := by
  simp only [decode, hf, decodeRecord, hd, entryRecord]

/-- Everything `decode` can answer (R110 to R119). -/
theorem decode_cases (t : Table M) (win : List Byte) (addr : Addr) :
    (fetchWord win = .error .bufferTooShort ∧ decode t win addr = .bufferTooShort) ∨
    ∃ len w, fetchWord win = .ok (len, w) ∧
      (decode t win addr = .ok invalidRecord len ∨
       ∃ e ∈ t, (e.len = len ∧ w &&& e.mask = e.pat) ∧ decode t win addr = .ok (entryRecord e w) len) := by
  cases hf : fetchWord win with
  | error x =>
    cases fetchWord_error hf
    exact .inl ⟨rfl, decode_of_fetchWord_error t addr hf⟩
  | ok fetched =>
    obtain ⟨len, w⟩ := fetched
    refine .inr ⟨len, w, rfl, ?_⟩
    cases hd : dispatch t len w with
    | none => exact .inl (decode_of_dispatch_none addr hf hd)
    | some e =>
      have hmatch : Entry.matches e len w = true := List.find?_some (p := fun e => Entry.matches e len w) hd
      exact .inr ⟨e, List.mem_of_find?_eq_some hd, Entry.matches_iff.1 hmatch, decode_of_dispatch_some addr hf hd⟩

/-- The same for a call that answered a record. -/
theorem decode_ok_cases (h : decode t win addr = .ok r len) :
    ∃ w, fetchWord win = .ok (len, w) ∧
      (r = invalidRecord ∨ ∃ e ∈ t, (e.len = len ∧ w &&& e.mask = e.pat) ∧ r = entryRecord e w) := by
  rcases decode_cases t win addr with ⟨-, hd⟩ | ⟨len', w, hf, hd | ⟨e, he, hmatch, hd⟩⟩ <;>
    cases hd.symm.trans h
  · exact ⟨w, hf, .inl rfl⟩
  · exact ⟨w, hf, .inr ⟨e, he, hmatch, rfl⟩⟩

theorem decode_ok_length (h : decode t win addr = .ok r len) : (len = 2 ∨ len = 4) ∧ len ≤ win.length := by
  obtain ⟨w, hf, -⟩ := decode_ok_cases h
  exact fetchWord_length hf

theorem length_le_three_of_decode_short (h : decode t win addr = .bufferTooShort) : win.length ≤ 3 := by
  rcases decode_cases t win addr with ⟨hf, -⟩ | ⟨len, w, -, hd | ⟨e, -, -, hd⟩⟩
  · exact length_le_three_of_fetchWord_error hf
  · cases hd.symm.trans h
  · cases hd.symm.trans h

/-- R123(a) to (e). -/
theorem decode_ok_valid (hwf : Table.wf t = true) (h : decode t win addr = .ok r len) : r.Valid := by
  obtain ⟨w, -, rfl | ⟨e, he, -, rfl⟩⟩ := decode_ok_cases h
  · exact invalidRecord_valid
  · exact entryRecord_valid (Table.wf_iff.1 hwf e he) w

end DecodeAnswers

/-! ## The statements -/

/-- Settles O39: the operands `ops` the slots resolve to are the record's, in their order. -/
theorem matchedEntryGivesItsRecord : Obligations.MatchedEntryGivesItsRecord := by
  intro M t win addr len w e hf hd hcount hresolve
  obtain ⟨ops, hops⟩ : ∃ ops : List Operand, (e.slots.map fun d => build d w) = ops.map .ok := by
    refine (slots_resolve_or_unknown e w).resolve_right ?_
    rintro ⟨d, hmem, hx⟩
    obtain ⟨op, hop⟩ := hresolve d hmem
    cases hop.symm.trans hx
  have hlen := length_of_map_eq_ok hops
  refine ⟨_, decode_of_dispatch_some addr hf hd, ?_⟩
  rw [entryRecord_of_map_eq hops]
  refine ⟨rfl, rfl, hlen, fun j hj => ?slot, fun j hj h8 => ?rest⟩
  case slot =>
    have hslot := List.getElem_of_eq hops (i := j) (by rwa [List.length_map])
    rw [List.getElem_map, List.getElem_map] at hslot
    rw [hslot, ofList_get ops (by omega), List.getD_eq_getElem _ _ (by omega)]
  case rest => rw [ofList_get ops h8, List.getD_eq_default _ _ (by omega)]

/-- Settles O40: dispatch selects no entry, and the length is the classified one. -/
theorem unrecognisedWordGivesTheInvalidRecord : Obligations.UnrecognisedWordGivesTheInvalidRecord :=
  fun _ _ _ addr _ _ hf hno =>
    ⟨decode_of_dispatch_none addr hf (dispatch_eq_none_iff.2 hno), fetchWord_lengthBit hf⟩

/-- Settles O41: one slot's failure is the whole entry's. -/
theorem unknownRegisterGivesTheInvalidRecord : Obligations.UnknownRegisterGivesTheInvalidRecord := by
  intro M t win addr len w e d hf hd hmem hx
  rw [decode_of_dispatch_some addr hf hd, entryRecord_of_build_error hmem hx]

/-- Settles O43: the record is the INVALID record or that of a matched, well-formed entry; W4 and W5 make it
valid, and a mnemonic other than INVALID leaves the entry with all its operands. -/
theorem everyReturnedRecordIsValid : Obligations.EveryReturnedRecordIsValid := by
  intro M t win addr r len hwf h
  have hvalid := decode_ok_valid hwf h
  obtain ⟨hlen, -⟩ := decode_ok_length h
  obtain ⟨w, hf, hr⟩ := decode_ok_cases h
  refine ⟨hvalid, ?invalid, fetchWord_lengthBit hf, by omega, ?real⟩
  case invalid =>
    intro hm
    obtain ⟨-, -, -, hiff, -⟩ := hvalid
    rw [hiff.1 hm]
    exact ⟨rfl, rfl⟩
  case real =>
    intro hm
    rcases hr with rfl | ⟨e, he, ⟨hl, hmatch⟩, rfl⟩
    · exact absurd rfl hm
    · rcases entryRecord_cases e w with ⟨ops, hops, hr⟩ | hr
      · rw [hr]
        exact ⟨w, hf, e, he, hl, hmatch, rfl, rfl, length_of_map_eq_ok hops⟩
      · exact absurd (congrArg Record.mnemonic hr) hm

/-- Settles O44: the answers of `decode_cases`, the record of an entry split on whether its slots resolve. -/
theorem resultHasOneOfThreeShapes : Obligations.ResultHasOneOfThreeShapes := by
  intro M t win addr
  rcases decode_cases t win addr with ⟨-, hd⟩ | ⟨len, w, hf, hd⟩
  · exact .inl hd
  · obtain ⟨hlen, hle⟩ := fetchWord_length hf
    refine .inr ⟨len, hlen, hle, ?_⟩
    rcases hd with hd | ⟨e, he, ⟨hl, hmatch⟩, hd⟩
    · exact .inl hd
    · rcases entryRecord_cases e w with ⟨ops, hops, hr⟩ | hr
      · exact .inr ⟨e, he, w, ops, hf, hl, hmatch, hops, hr ▸ hd⟩
      · exact .inl (hr ▸ hd)

/-- R150, R151: in `REF_TABLE` the rows of RET are in the groups of the parameter, the others in none. -/
theorem refTable_jump_iff (j : Bool) :
    ∀ e ∈ refTable j, e.groups.jump = true ↔ j = true ∧ e.mnemonic = .real .ret := by
  cases j <;> decide

/-- Settles O31: a record has the mnemonic and groups of its row, or is the INVALID record. -/
theorem onlyRetCanBeAJump : Obligations.OnlyRetCanBeAJump := by
  intro j win addr r len h
  refine ⟨?_, rfl, rfl⟩
  have hinvalid : groupContains (invalidRecord : Record RefMnemonic).groups .jump = true ↔
      j = true ∧ (invalidRecord : Record RefMnemonic).mnemonic = .real .ret := by
    simp [invalidRecord, noGroups, groupContains]
  obtain ⟨w, -, rfl | ⟨e, he, -, rfl⟩⟩ := decode_ok_cases h
  · exact hinvalid
  · rcases entryRecord_cases e w with ⟨ops, -, hr⟩ | hr
    · rw [hr]
      exact refTable_jump_iff j e he
    · rwa [hr]

end Machine
end Sys2Proof
end

section
/-! PROOFS. The decoder family (42_instruction_decoder.md), the rows of `REF_TABLE`: the typed dispatch and meanings
of `Instr` agree with the table-driven decode (O13), and the frame of every instruction (O9). -/

namespace Sys2Proof

open PlacedField

/-! ## The opcode fields of an instruction (R62 to R64) -/

/-- The fields that tell the instruction's row from the others: `op1`, and `op2` where the row has one. -/
def Instr.opcode : Instr → List PlacedField
  | .movSrc _ _ => [⟨8, 0, 0x82⟩]
  | .movSrr _ _ => [⟨8, 0, 0x02⟩]
  | .movESrc _ _ => [⟨8, 0, 0xD2⟩]
  | .retSr => [⟨4, 12, 0x9⟩, ⟨8, 0, 0x00⟩]
  | .ldWSlr _ _ => [⟨8, 0, 0x54⟩]
  | .movRlc _ _ => [⟨8, 0, 0x3B⟩]
  | .retSys => [⟨6, 22, 0x06⟩, ⟨8, 0, 0x0D⟩]
  | .ldWBo _ _ _ => [⟨6, 22, 0x24⟩, ⟨8, 0, 0x09⟩]
  | .ldWBol _ _ _ => [⟨8, 0, 0x19⟩]

theorem Instr.opcode_sublist_fields (i : Instr) : i.opcode.Sublist i.fields := by
  cases i <;> simp [Instr.opcode, Instr.fields]

/-- A word with the opcode fields of one instruction decodes to some instruction (R114). -/
theorem exists_decodeWord_of_opcode (i : Instr) {w : Word} (h : ∀ f ∈ i.opcode, f.ReadFrom w) :
    ∃ i', decodeWord i.length w = .ok i' := by
  cases i <;> simp only [Instr.opcode, List.forall_mem_cons, ReadFrom] at h
  case movSrc =>
    obtain ⟨hop, -⟩ := h
    exact ⟨_, decode16_movSrc hop⟩
  case movSrr =>
    obtain ⟨hop, -⟩ := h
    exact ⟨_, decode16_movSrr hop⟩
  case movESrc =>
    obtain ⟨hop, -⟩ := h
    exact ⟨_, decode16_movESrc hop⟩
  case retSr =>
    obtain ⟨hop2, hop, -⟩ := h
    exact ⟨_, decode16_retSr hop hop2⟩
  case ldWSlr =>
    obtain ⟨hop, -⟩ := h
    exact ⟨_, decode16_ldWSlr hop⟩
  case movRlc =>
    obtain ⟨hop, -⟩ := h
    exact ⟨_, decode32_movRlc hop⟩
  case retSys =>
    obtain ⟨hop2, hop, -⟩ := h
    exact ⟨_, decode32_retSys hop hop2⟩
  case ldWBo =>
    obtain ⟨hop2, hop, -⟩ := h
    exact ⟨_, decode32_ldWBo hop hop2⟩
  case ldWBol =>
    obtain ⟨hop, -⟩ := h
    exact ⟨_, decode32_ldWBol hop⟩

/-! ## What the decoder's answer says of the word -/

section Decoded

variable {win rest : List Byte} {len : Nat} {w : Word} {i : Instr}

theorem fields_of_decodeWord (hl : len = 2 ∨ len = 4) (h : decodeWord len w = .ok i) :
    i.length = len ∧ ∀ f ∈ i.fields, f.ReadFrom w := by
  have hlen := decodeWord_length hl h
  exact ⟨hlen, (decodeWord_eq_ok_iff i w).1 (hlen ▸ h)⟩

/-- An instruction read from a window is the one its fetched word decodes to. -/
theorem exists_word_of_decodeBytes (h : decodeBytes win = .ok (i, rest)) :
    ∃ len w, fetchWord win = .ok (len, w) ∧ decodeWord len w = .ok i := by
  unfold decodeBytes at h
  split at h
  · cases h
  · next len w hf =>
    split at h
    · cases h
    · next i' hi =>
      cases h
      exact ⟨len, w, hf, hi⟩

end Decoded

namespace Machine

/-! ## The row of an instruction (R64) -/

/-- The entry of `REF_TABLE` an instruction belongs to. -/
def instrRow (j : Bool) : Instr → Entry RefMnemonic
  | .movSrc _ _ => rowMovSrc
  | .movSrr _ _ => rowMovSrr
  | .movESrc _ _ => rowMovESrc
  | .retSr => rowRetSr j
  | .ldWSlr _ _ => rowLdWSlr
  | .movRlc _ _ => rowMovRlc
  | .retSys => rowRetSys j
  | .ldWBo _ _ _ => rowLdWBo
  | .ldWBol _ _ _ => rowLdWBol

section Row

variable (j : Bool) (i : Instr)

theorem instrRow_mem : instrRow j i ∈ refTable j := by
  cases i <;> simp [instrRow, refTable]

theorem instrRow_len : (instrRow j i).len = i.length := by
  cases i <;> rfl

/-- The row's mask covers the opcode fields and nothing else. -/
theorem instrRow_mask : (instrRow j i).mask = allMask i.opcode := by
  cases i <;> rfl

theorem instrRow_pat : (instrRow j i).pat = allBits i.opcode := by
  cases i <;> rfl

/-- Every entry of `REF_TABLE` is the row of an instruction. -/
theorem exists_instrRow_of_mem {e : Entry RefMnemonic} (h : e ∈ refTable j) : ∃ i, e = instrRow j i := by
  simp only [refTable, List.mem_cons, List.not_mem_nil, or_false] at h
  obtain rfl | rfl | rfl | rfl | rfl | rfl | rfl | rfl | rfl := h
  · exact ⟨.movSrc 0 0, rfl⟩
  · exact ⟨.movSrr 0 0, rfl⟩
  · exact ⟨.movESrc 0 0, rfl⟩
  · exact ⟨.retSr, rfl⟩
  · exact ⟨.ldWSlr 0 0, rfl⟩
  · exact ⟨.movRlc 0 0, rfl⟩
  · exact ⟨.retSys, rfl⟩
  · exact ⟨.ldWBo 0 0 0, rfl⟩
  · exact ⟨.ldWBol 0 0 0, rfl⟩

/-- R55: a word matches the row exactly if it has the row's length and opcode fields. -/
theorem matches_instrRow_iff (len : Nat) (w : Word) :
    Entry.matches (instrRow j i) len w = true ↔ i.length = len ∧ ∀ f ∈ i.opcode, f.ReadFrom w := by
  rw [Entry.matches_iff, instrRow_len, instrRow_mask, instrRow_pat, and_allMask_eq_allBits_iff w
    (fun f hf => i.fields_fit f (i.opcode_sublist_fields.subset hf))
    (i.fields_descend.sublist i.opcode_sublist_fields)]

end Row

/-! ## The typed dispatch is the table's dispatch (R114) -/

section Dispatch

variable {len : Nat} {w : Word} (j : Bool)

theorem dispatch_of_decodeWord_ok {i : Instr} (hl : len = 2 ∨ len = 4) (h : decodeWord len w = .ok i) :
    dispatch (refTable j) len w = some (instrRow j i) := by
  obtain ⟨hlen, hfields⟩ := fields_of_decodeWord hl h
  obtain ⟨-, hunambiguous⟩ := refTableIsWellFormedAndUnambiguous j
  rw [dispatch_eq_some_iff_of_unambiguous hunambiguous, matches_instrRow_iff]
  exact ⟨instrRow_mem j i, hlen, fun f hf => hfields f (i.opcode_sublist_fields.subset hf)⟩

theorem dispatch_of_decodeWord_error {x : DecodeError} (h : decodeWord len w = .error x) :
    dispatch (refTable j) len w = none := by
  rw [dispatch_eq_none_iff]
  intro e he hmatch
  obtain ⟨i, rfl⟩ := exists_instrRow_of_mem j he
  obtain ⟨rfl, hopcode⟩ := (matches_instrRow_iff j i len w).1 (Entry.matches_iff.2 hmatch)
  obtain ⟨i', hi'⟩ := exists_decodeWord_of_opcode i hopcode
  cases h.symm.trans hi'

end Dispatch

/-! ## The meaning of an instruction is the record of its row (R115 to R117) -/

section Slots

variable {w : Word} {p : Piece}

/-- R90: a piece is read as the field at its place. -/
theorem extract_of_readFrom {f : PlacedField} (h : f.ReadFrom w) (hlo : p.lo = f.lo) (hwidth : p.width = f.width) :
    extract w p = f.value.toNat := by
  rw [← h, extract_eq_shiftRight_mod, hlo, hwidth, BitVec.extractLsb'_toNat]

/-- R91: one piece is its own concatenation. -/
theorem gather_singleton (w : Word) (p : Piece) : gather w [p] = (extract w p, p.width) := by
  rw [gather_cons, gather_nil, pow_zero, Nat.mul_one, Nat.add_zero, Nat.add_zero]

/-- BO: the pieces of `off10` make it up (R63). -/
theorem toNat_off10 (o : BitVec 10) :
    (o.extractLsb' 6 4).toNat * 2 ^ 6 + (o.extractLsb' 0 6).toNat = o.toNat := by
  have := o.isLt
  simp only [BitVec.extractLsb'_toNat, Nat.shiftRight_eq_div_pow]
  omega

/-- BOL: the pieces of `off16` make it up (R63). -/
theorem toNat_off16 (o : BitVec 16) : (o.extractLsb' 10 6).toNat * 2 ^ 10 +
    ((o.extractLsb' 6 4).toNat * 2 ^ 6 + (o.extractLsb' 0 6).toNat) = o.toNat := by
  have := o.isLt
  simp only [BitVec.extractLsb'_toNat, Nat.shiftRight_eq_div_pow]
  omega

section Build

variable {f : PlacedField} {cls : RegClass} {x : Extension} {ps : List Piece} (h : f.ReadFrom w)
  (hlo : p.lo = f.lo) (hwidth : p.width = f.width)
include h hlo hwidth

theorem build_regOp_of_readFrom : build (.regOp cls p) w = buildRegister cls f.value.toNat := by
  rw [build, extract_of_readFrom h hlo hwidth]

theorem build_immOp_of_readFrom : build (.immOp [p] x) w = buildImmediate x f.value.toNat f.width := by
  rw [build, gather_singleton, extract_of_readFrom h hlo hwidth, hwidth]

theorem build_memOp_of_readFrom {v n : Nat} (hps : gather w ps = (v, n)) :
    build (.memOp cls p ps x) w = buildMemory cls f.value.toNat x v n := by
  rw [build, extract_of_readFrom h hlo hwidth, hps]

end Build

theorem map_build_pair {d d' : Descriptor} {b b' : Except DecodeError Operand} (h : build d w = b)
    (h' : build d' w = b') : ([d, d'].map fun d => build d w) = [b, b'] := by
  rw [List.map_cons, List.map_cons, List.map_nil, h, h']

end Slots

/-- The slot results an instruction's meaning hands to `returnRecord`, from its own fields. -/
def instrSlots : Instr → List (Except DecodeError Operand)
  | .movSrc a c => [buildRegister .gpr a.toNat, buildImmediate .signed c.toNat 4]
  | .movSrr a b => [buildRegister .gpr a.toNat, buildRegister .gpr b.toNat]
  | .movESrc a c => [buildRegister .ext a.toNat, buildImmediate .signed c.toNat 4]
  | .retSr => []
  | .ldWSlr c b => [buildRegister .gpr c.toNat, buildMemory .addr b.toNat .signed 0 0]
  | .movRlc c k => [buildRegister .gpr c.toNat, buildImmediate .signed k.toNat 16]
  | .retSys => []
  | .ldWBo a b o => [buildRegister .gpr a.toNat, buildMemory .addr b.toNat .signed o.toNat 10]
  | .ldWBol a b o => [buildRegister .gpr a.toNat, buildMemory .addr b.toNat .signed o.toNat 16]

theorem exec_eq_recordOf_instrSlots (i : Instr) (s : State) :
    exec i s = .next (s.returnOk (recordOf (instrRow Config.retIsJump i).mnemonic
      (instrRow Config.retIsJump i).groups (instrSlots i)) i.length) := by
  cases i <;> rfl

/-- R116: the descriptors of the row take from the word the fields the instruction carries. -/
theorem build_slots_of_fields (j : Bool) (i : Instr) {w : Word} (h : ∀ f ∈ i.fields, f.ReadFrom w) :
    ((instrRow j i).slots.map fun d => build d w) = instrSlots i := by
  cases i <;> simp only [Instr.fields, List.forall_mem_cons] at h
  case movSrc a c =>
    obtain ⟨hc, ha, -⟩ := h
    exact map_build_pair (build_regOp_of_readFrom ha rfl rfl) (build_immOp_of_readFrom hc rfl rfl)
  case movSrr a b =>
    obtain ⟨hb, ha, -⟩ := h
    exact map_build_pair (build_regOp_of_readFrom ha rfl rfl) (build_regOp_of_readFrom hb rfl rfl)
  case movESrc a c =>
    obtain ⟨hc, ha, -⟩ := h
    exact map_build_pair (build_regOp_of_readFrom ha rfl rfl) (build_immOp_of_readFrom hc rfl rfl)
  case retSr => rfl
  case ldWSlr c b =>
    obtain ⟨hb, hc, -⟩ := h
    exact map_build_pair (build_regOp_of_readFrom hc rfl rfl) (build_memOp_of_readFrom hb rfl rfl (gather_nil w))
  case movRlc c k =>
    obtain ⟨hc, hk, -⟩ := h
    exact map_build_pair (build_regOp_of_readFrom hc rfl rfl) (build_immOp_of_readFrom hk rfl rfl)
  case retSys => rfl
  case ldWBo a b o =>
    obtain ⟨hhi, -, hlo, hb, ha, -⟩ := h
    have hoff : gather w [⟨31, 28⟩, ⟨21, 16⟩] = (o.toNat, 10) := by
      rw [gather_cons, gather_singleton, extract_of_readFrom hhi rfl rfl, extract_of_readFrom hlo rfl rfl,
        ← toNat_off10 o]
      rfl
    exact map_build_pair (build_regOp_of_readFrom ha rfl rfl) (build_memOp_of_readFrom hb rfl rfl hoff)
  case ldWBol a b o =>
    obtain ⟨hmid, hhi, hlo, hb, ha, -⟩ := h
    have hoff : gather w [⟨27, 22⟩, ⟨31, 28⟩, ⟨21, 16⟩] = (o.toNat, 16) := by
      rw [gather_cons, gather_cons, gather_singleton, extract_of_readFrom hhi rfl rfl,
        extract_of_readFrom hmid rfl rfl, extract_of_readFrom hlo rfl rfl, ← toNat_off16 o]
      rfl
    exact map_build_pair (build_regOp_of_readFrom ha rfl rfl) (build_memOp_of_readFrom hb rfl rfl hoff)

/-- R115 to R117, R125: an instruction returns the record its row gives for any word that shows its fields. -/
theorem exec_of_fields (i : Instr) {w : Word} (h : ∀ f ∈ i.fields, f.ReadFrom w) (s : State) :
    exec i s = .next (s.returnOk (entryRecord (instrRow Config.retIsJump i) w) i.length) := by
  rw [exec_eq_recordOf_instrSlots, entryRecord, build_slots_of_fields Config.retIsJump i h]

/-- R123: the record an instruction returns is valid, since its row is well-formed. -/
theorem exec_returns_valid (i : Instr) (s : State) :
    ∃ r : Record RefMnemonic, r.Valid ∧ exec i s = .next (s.returnOk r i.length) := by
  have hfields := (decodeWord_eq_ok_iff i (encodeWord i)).1 (decodeWord_encodeWord i)
  obtain ⟨hwf, -⟩ := refTableIsWellFormedAndUnambiguous Config.retIsJump
  have hrow := Table.wf_iff.1 hwf _ (instrRow_mem Config.retIsJump i)
  exact ⟨_, entryRecord_valid hrow (encodeWord i), exec_of_fields i hfields s⟩

/-! ## The statements -/

/-- Settles O9: the state after an instruction is `returnOk` of a valid record. -/
theorem everyInstructionKeepsAllButItsRecord : Obligations.EveryInstructionKeepsAllButItsRecord := by
  intro i s
  obtain ⟨r, hvalid, hexec⟩ := exec_returns_valid i s
  exact ⟨s.returnOk r i.length, r, hexec, fun _ => rfl, rfl, rfl, rfl, rfl, rfl, hvalid⟩

/-- Settles O13: the fetch is the same; a recognised word runs the instruction whose row the table's dispatch
selects, an unrecognised one matches no entry. -/
theorem stepIsOneDecodeCall : Obligations.StepIsOneDecodeCall := by
  intro s hs h0
  cases hf : fetchWord s.window with
  | error x => rw [step_of_fetchWord_error hs h0 hf, decode_of_fetchWord_error _ _ hf, apply_bufferTooShort]
  | ok fetched =>
    obtain ⟨len, w⟩ := fetched
    obtain ⟨hl, -⟩ := fetchWord_length hf
    cases hd : decodeWord len w with
    | error x =>
      rw [step_of_decodeWord_error hs hf hd, returnInvalid_eq,
        decode_of_dispatch_none (t := fmtTable) _ hf (dispatch_of_decodeWord_error _ hd), apply_ok]
    | ok i =>
      obtain ⟨hlen, hfields⟩ := fields_of_decodeWord hl hd
      rw [step_of_decodeWord_ok hs hf hd, exec_of_fields i hfields, hlen,
        decode_of_dispatch_some (t := fmtTable) _ hf (dispatch_of_decodeWord_ok _ hl hd), apply_ok]

end Machine
end Sys2Proof
end

section
/-! PROOFS. The decoder family (42_instruction_decoder.md), the scan as a machine: the branches of a step (O2 to O5,
O7), what a step keeps and where it leads (O10 to O12, O16, O17), and the loader (O1, O20). -/

namespace Sys2Proof.Machine

/-! ## The branches of a step (R125) -/

/-- Settles O2: the window's word is fetched and decodes to the instruction. -/
theorem stepRunsTheDecodedInstruction : Obligations.StepRunsTheDecodedInstruction := by
  intro s i rest hs h
  obtain ⟨len, w, hf, hd⟩ := exists_word_of_decodeBytes h
  exact step_of_decodeWord_ok hs hf hd

/-- Settles O3: the INVALID record is returned with the class's length. -/
theorem stepOnAnUnrecognisedWord : Obligations.StepOnAnUnrecognisedWord :=
  fun _ _ _ _ hs hf hd => step_of_decodeWord_error hs hf hd

/-- Settles O4: the fetch of a truncated window fails. -/
theorem stepOnATruncatedWindow : Obligations.StepOnATruncatedWindow := by
  intro s hs h
  have hf : fetchWord s.window = .error .bufferTooShort :=
    fetchWord_of_truncated (h.imp_left fun h1 => h1.trans_lt one_lt_two)
  exact step_of_fetchWord_error hs (by omega) hf

theorem step_of_inAvail_eq_zero {s : State} (hs : s.status = .running) (h0 : s.inAvail = 0) :
    step s = .next s.returnDone := by
  simp [step, hs, h0]

theorem step_of_not_running {s : State} (hs : s.status ≠ .running) : step s = .next s := by
  rcases step_cases s with ⟨-, h⟩ | ⟨hr, -⟩ | ⟨hr, -⟩ | ⟨-, -, -, hr, -⟩
  · exact h
  · exact absurd hr hs
  · exact absurd hr hs
  · exact absurd hr hs

/-- Settles O5: the branch of the empty window. -/
theorem stepAtTheEndReturnsDone : Obligations.StepAtTheEndReturnsDone :=
  fun _ hs h0 => step_of_inAvail_eq_zero hs h0

/-- Settles O7: every branch of a step answers a next state. -/
theorem everyStepAnswersANextState : Obligations.EveryStepAnswersANextState := by
  intro s
  rcases step_cases s with ⟨-, h⟩ | ⟨-, -, h⟩ | ⟨-, -, -, h⟩ | ⟨len, w, r, -, -, -, h⟩
  · exact ⟨s, h⟩
  · exact ⟨s.returnDone, h⟩
  · exact ⟨s.returnShort, h⟩
  · exact ⟨s.returnOk r len, h⟩

/-- What a step with bytes left can do, with what R123 and R126 add to it: the record is valid and stays inside
the window, and a call comes back short with at most 3 bytes. -/
theorem step_with_bytes_left {s : State} (hs : s.status = .running) (h0 : s.inAvail ≠ 0) :
    (s.inAvail ≤ 3 ∧ step s = .next s.returnShort) ∨
    ∃ r len, (len = 2 ∨ len = 4) ∧ len ≤ s.inAvail ∧ r.Valid ∧ step s = .next (s.returnOk r len) := by
  have hstep := stepIsOneDecodeCall s hs h0
  obtain ⟨hwf, -⟩ := refTableIsWellFormedAndUnambiguous Config.retIsJump
  cases hd : decode fmtTable s.window s.inAddr with
  | bufferTooShort =>
    rw [hd, apply_bufferTooShort] at hstep
    exact .inl ⟨length_le_three_of_decode_short hd, hstep⟩
  | ok r len =>
    rw [hd, apply_ok] at hstep
    obtain ⟨hl, hle⟩ := decode_ok_length hd
    exact .inr ⟨r, len, hl, hle, decode_ok_valid hwf hd, hstep⟩

/-! ## Progress (R126, R210) -/

/-- Settles O16: the two cases of a step with bytes left. -/
theorem everyStepMakesProgress : Obligations.EveryStepMakesProgress := by
  intro s t hs h0 h
  rcases step_with_bytes_left hs h0 with ⟨hle, hstep⟩ | ⟨r, len, hl, hle, -, hstep⟩ <;>
    obtain rfl := Host.Outcome.next.inj (hstep.symm.trans h)
  · exact .inr ⟨rfl, rfl, rfl, hle⟩
  · refine .inl ⟨hs, ?_, Nat.add_le_add_left hle s.off, ?_⟩
    · rw [returnOk_off]; omega
    · rw [returnOk_out, List.length_append, List.length_singleton]

/-! ## The next call's window and address (R125) -/

section NextCall

variable {s : State} (r : Record RefMnemonic) {len : Nat}

theorem returnOk_window (hwf : Memory.wf s.mem) (hle : len ≤ s.inAvail) :
    (s.returnOk r len).window = s.window.drop len := window_drop hwf hle

/-- D17: the address advances modulo 2^64. -/
theorem returnOk_inAddr : (s.returnOk r len).inAddr = s.inAddr + BitVec.ofNat 64 len := by
  simp only [State.inAddr, returnOk_base, returnOk_off, BitVec.ofNat_add, BitVec.add_assoc]

end NextCall

/-- Settles O17: a step that returns no record leaves the offset, one that does advances it by the length. -/
theorem nextCallStartsWhereThisOneEnded : Obligations.NextCallStartsWhereThisOneEnded := by
  intro s t hwf h
  have hsame (ht : t.mem = s.mem ∧ t.base = s.base ∧ t.off = s.off) : s.off ≤ t.off ∧
      t.window = s.window.drop (t.off - s.off) ∧ t.inAddr = s.inAddr + BitVec.ofNat 64 (t.off - s.off) := by
    obtain ⟨hmem, hbase, hoff⟩ := ht
    simp [State.window, State.inAddr, hmem, hbase, hoff]
  obtain ⟨-, e⟩ | ⟨-, -, e⟩ | ⟨-, -, -, e⟩ | ⟨len, w, r, -, -, hf, e⟩ := step_cases s <;>
    obtain rfl := Host.Outcome.next.inj (e.symm.trans h)
  · exact hsame ⟨rfl, rfl, rfl⟩
  · exact hsame ⟨rfl, rfl, rfl⟩
  · exact hsame ⟨rfl, rfl, rfl⟩
  · obtain ⟨-, hle⟩ := fetchWord_length hf
    rw [returnOk_off, Nat.add_sub_cancel_left]
    exact ⟨Nat.le_add_right _ _, returnOk_window r hwf hle, returnOk_inAddr r⟩

/-! ## The invariant of a scan (R123, R125, R126) -/

/-- Records that tile up to `stop` and one more there tile up to its end. -/
theorem tiles_append_singleton {M : Type} {off stop len : Nat} {out : List (ScanEntry M)} {r : Record M}
    (h : tiles off out stop) (hl : len = 2 ∨ len = 4) (hr : r.Valid) :
    tiles off (out ++ [⟨stop, r, len⟩]) (stop + len) := by
  induction out generalizing off with
  | nil =>
    obtain rfl : off = stop := h
    exact ⟨rfl, hl, hr, rfl⟩
  | cons e out ih =>
    obtain ⟨hoff, hlen, hvalid, htiles⟩ := h
    exact ⟨hoff, hlen, hvalid, ih htiles⟩

section Invariant

variable {s : State} (hinv : s.Inv)
include hinv

theorem inv_inAvail : s.inAvail = s.mem.length - s.off := by
  obtain ⟨hcontiguous, -⟩ := hinv
  exact contiguous_inAvail hcontiguous

theorem returnDone_inv (h0 : s.inAvail = 0) : s.returnDone.Inv := by
  have havail := inv_inAvail hinv
  obtain ⟨hcontiguous, hoff, htiles, -, -⟩ := hinv
  exact ⟨hcontiguous, hoff, htiles, fun _ => show s.off = s.mem.length by omega, fun k hk => nomatch hk⟩

theorem returnShort_inv (h0 : s.inAvail ≠ 0) (h3 : s.inAvail ≤ 3) : s.returnShort.Inv := by
  have havail := inv_inAvail hinv
  obtain ⟨hcontiguous, hoff, htiles, -, -⟩ := hinv
  refine ⟨hcontiguous, hoff, htiles, fun hd => (nomatch hd), fun k hk => ?_⟩
  cases hk
  exact ⟨rfl, show 1 ≤ s.mem.length - s.off ∧ s.mem.length - s.off ≤ 3 by omega⟩

theorem returnOk_inv {r : Record RefMnemonic} {len : Nat} (hs : s.status = .running) (hl : len = 2 ∨ len = 4)
    (hle : len ≤ s.inAvail) (hr : r.Valid) : (s.returnOk r len).Inv := by
  have havail := inv_inAvail hinv
  obtain ⟨hcontiguous, hoff, htiles, -, -⟩ := hinv
  have hin : s.off + len ≤ s.mem.length := by omega
  refine ⟨hcontiguous, hin, tiles_append_singleton htiles hl hr, fun hd => ?_, fun k hk => ?_⟩
  · cases hs.symm.trans hd
  · cases hs.symm.trans hk

end Invariant

/-- Settles O10: each way a step comes back keeps the invariant; the records are valid because the step is a
`decode` call with the well-formed `REF_TABLE`. -/
theorem everyStepKeepsTheScanConsistent : Obligations.EveryStepKeepsTheScanConsistent := by
  intro s t hinv h
  by_cases hs : s.status = .running
  · by_cases h0 : s.inAvail = 0
    · obtain rfl := Host.Outcome.next.inj ((step_of_inAvail_eq_zero hs h0).symm.trans h)
      exact returnDone_inv hinv h0
    · rcases step_with_bytes_left hs h0 with ⟨h3, hstep⟩ | ⟨r, len, hl, hle, hr, hstep⟩ <;>
        obtain rfl := Host.Outcome.next.inj (hstep.symm.trans h)
      · exact returnShort_inv hinv h0 h3
      · exact returnOk_inv hinv hs hl hle hr
  · obtain rfl := Host.Outcome.next.inj ((step_of_not_running hs).symm.trans h)
    exact hinv

/-- Settles O12: a buffer of given bytes has no gap, and no record has been returned. -/
theorem everyStartOfAScanIsConsistent : Obligations.EveryStartOfAScanIsConsistent :=
  fun buf _ => ⟨ofBytes_contiguous buf, Nat.zero_le _, rfl, fun hd => (nomatch hd), fun _ hk => nomatch hk⟩

/-! ## Reset and the loader (assumption logs 2 and 3) -/

/-- Reset is the start of a scan of the empty buffer at address 0. -/
theorem reset_eq_load : State.reset = State.load [] 0 := rfl

/-- Settles O1: the fields of `reset_eq_load`. -/
theorem resetIsTheStartOfAScan : Obligations.ResetIsTheStartOfAScan := by
  rw [Obligations.ResetIsTheStartOfAScan, reset_eq_load]
  exact ⟨load_off [] 0, load_out [] 0, load_mem [] 0, load_base [] 0, load_status [] 0⟩

/-- Settles O11: as one start of a scan among all. -/
theorem resetScanIsConsistent : Obligations.ResetScanIsConsistent := by
  rw [Obligations.ResetScanIsConsistent, reset_eq_load]
  exact everyStartOfAScanIsConsistent [] 0

theorem mem_of_read {m : Memory} {a : Nat} {b : Byte} (h : Memory.read m a = some b) : (a, b) ∈ m := by
  induction m with
  | nil => cases h
  | cons c m ih =>
    obtain ⟨k, y⟩ := c
    rw [Memory.read] at h
    split at h
    · next hk =>
      subst hk
      cases h
      exact List.mem_cons_self
    · exact List.mem_cons_of_mem _ (ih h)

/-- A byte that can be read at an index begins the window there. -/
theorem window_of_read {m : Memory} (hwf : Memory.wf m) {a : Nat} {b : Byte} (h : Memory.read m a = some b) :
    Memory.window m a = b :: Memory.window m (a + 1) := by
  induction m with
  | nil => cases h
  | cons c m ih =>
    obtain ⟨k, y⟩ := c
    obtain ⟨hk, hm⟩ := wf_cons.1 hwf
    rw [Memory.read] at h
    split at h
    · next hka =>
      subst hka
      cases h
      simp [Memory.window]
    · have hlt : k < a := hk _ (mem_of_read h)
      rw [Memory.window, if_pos hlt, Memory.window, if_pos (Nat.lt_succ_of_lt hlt), ih hm h]

theorem read_writeBytes_of_lt (m : Memory) {a k : Nat} (bs : List Byte) (h : k < a) :
    Memory.read (Memory.writeBytes m a bs) k = Memory.read m k := by
  induction bs generalizing m a with
  | nil => rfl
  | cons b bs ih => rw [Memory.writeBytes, ih _ (Nat.lt_succ_of_lt h), read_write_other m b h.ne]

/-- A write leaves every window further on as it was. -/
theorem window_write_of_lt (m : Memory) {a k : Nat} (b : Byte) (h : a < k) :
    Memory.window (Memory.write m a b) k = Memory.window m k := by
  induction m with
  | nil => simp [Memory.write, Memory.window, h]
  | cons c m ih =>
    obtain ⟨x, y⟩ := c
    simp only [Memory.write]
    split
    · next hxa => simp [Memory.window, hxa.trans h, ih]
    · split
      · subst x; simp [Memory.window, h]
      · simp [Memory.window, h]

/-- The window at bytes just written is those bytes, then what stood after them. -/
theorem writeBytes_window {m : Memory} (hwf : Memory.wf m) (a : Nat) (bs : List Byte) :
    Memory.window (Memory.writeBytes m a bs) a = bs ++ Memory.window m (a + bs.length) := by
  induction bs generalizing m a with
  | nil => rfl
  | cons b bs ih =>
    have hread : Memory.read (Memory.writeBytes (Memory.write m a b) (a + 1) bs) a = some b := by
      rw [read_writeBytes_of_lt _ bs (Nat.lt_succ_self a), read_write_same]
    rw [Memory.writeBytes, window_of_read (writeBytes_wf (write_wf hwf a b) _ _) hread, ih (write_wf hwf a b),
      window_write_of_lt m b (by omega), List.cons_append, List.length_cons, Nat.add_right_comm a 1, Nat.add_assoc]

/-- The window of a placed word begins with its four bytes, so the fetch sees no other. -/
theorem fetchWord_withFetchWord {s : State} (hwf : Memory.wf s.mem) (nbits w : Nat) :
    fetchWord (s.withFetchWord nbits w).window = fetchWord (tableWordBytes nbits w) := by
  have hlen : (tableWordBytes nbits w).length = 4 := leBytes_length 4 _
  have hwindow : (s.withFetchWord nbits w).window =
      tableWordBytes nbits w ++ Memory.window s.mem (s.off + (tableWordBytes nbits w).length) :=
    writeBytes_window hwf s.off _
  rw [← fetchWord_take_four, hwindow, List.take_left' hlen]

/-- Settles O20: the window and the placed bytes have one fetch, whose word decodes to the instruction. -/
theorem placedWordIsRunNext : Obligations.PlacedWordIsRunNext := by
  intro s nbits w i hwf h
  unfold decodeTableWord at h
  split at h
  · next i' rest hbytes =>
    cases h
    obtain ⟨len, word, hf, hd⟩ := exists_word_of_decodeBytes hbytes
    exact step_of_decodeWord_ok (withFetchWord_status s nbits w)
      ((fetchWord_withFetchWord hwf nbits w).trans hf) hd
  · cases h

end Sys2Proof.Machine
end

section
/-! PROOFS. The decoder family (42_instruction_decoder.md), R125's `scan` as a function: it returns (O15), and a run of
the machine is exactly it (O14). -/

namespace Sys2Proof.Machine

/-! ## The loop of `scan`, one equation per branch (R125) -/

section ScanEquations

variable {M : Type} (t : Table M) (base : Addr) (fuel : Nat) {rest : List Byte} {off : Nat}
  (out : List (ScanEntry M))

theorem scanFrom_nil : scanFrom t base (fuel + 1) [] off out = (out, .done) := rfl

theorem scanFrom_short (hne : rest ≠ []) (hd : decode t rest (base + BitVec.ofNat 64 off) = .bufferTooShort) :
    scanFrom t base (fuel + 1) rest off out = (out, .stoppedShort off) := by
  rw [scanFrom, if_neg hne, hd]

theorem scanFrom_ok {r : Record M} {len : Nat} (hne : rest ≠ [])
    (hd : decode t rest (base + BitVec.ofNat 64 off) = .ok r len) :
    scanFrom t base (fuel + 1) rest off out =
      scanFrom t base fuel (rest.drop len) (off + len) (out ++ [⟨off, r, len⟩]) := by
  rw [scanFrom, if_neg hne, hd]

end ScanEquations

/-- The bound on the iterations plays no part once it exceeds half the bytes left (R126(a); assumption log 22). -/
theorem scanFrom_fuel {M : Type} (t : Table M) (base : Addr) {fuel fuel' : Nat} {rest : List Byte} (off : Nat)
    (out : List (ScanEntry M)) (h : (rest.length + 1) / 2 < fuel) (h' : (rest.length + 1) / 2 < fuel') :
    scanFrom t base fuel rest off out = scanFrom t base fuel' rest off out := by
  induction fuel generalizing fuel' rest off out with
  | zero => omega
  | succ fuel ih =>
    obtain ⟨fuel', rfl⟩ := Nat.exists_eq_succ_of_ne_zero (Nat.ne_zero_of_lt h')
    by_cases hne : rest = []
    · subst hne
      rw [scanFrom_nil, scanFrom_nil]
    · cases hd : decode t rest (base + BitVec.ofNat 64 off) with
      | bufferTooShort => rw [scanFrom_short t base fuel out hne hd, scanFrom_short t base fuel' out hne hd]
      | ok r len =>
        obtain ⟨hl, hle⟩ := decode_ok_length hd
        have hdrop : (rest.drop len).length = rest.length - len := List.length_drop
        rw [scanFrom_ok t base fuel out hne hd, scanFrom_ok t base fuel' out hne hd]
        exact ih _ _ (by omega) (by omega)

/-! ## The scan returns (R126) -/

/-- R126(b), (c): the records tile from 0 to a place `stop` in the `n` bytes, and the final status is true of it. -/
def ScanEnds {M : Type} (n : Nat) (result : List (ScanEntry M) × ScanStatus) : Prop :=
  ∃ stop, tiles 0 result.1 stop ∧ stop ≤ n ∧
    ((result.2 = .done ∧ stop = n) ∨ (result.2 = .stoppedShort stop ∧ 1 ≤ n - stop ∧ n - stop ≤ 3))

/-- From records that tile up to `off`, the loop ends with as many more as half the bytes left, rounded up. -/
theorem scanFrom_ends {M : Type} {t : Table M} (hwf : Table.wf t = true) (base : Addr) {fuel : Nat}
    {rest : List Byte} {off : Nat} {out : List (ScanEntry M)} (htiles : tiles 0 out off)
    (hfuel : (rest.length + 1) / 2 < fuel) :
    (scanFrom t base fuel rest off out).1.length ≤ out.length + (rest.length + 1) / 2 ∧
    ScanEnds (off + rest.length) (scanFrom t base fuel rest off out) := by
  induction fuel generalizing rest off out with
  | zero => omega
  | succ fuel ih =>
    by_cases hne : rest = []
    · subst hne
      rw [scanFrom_nil]
      exact ⟨Nat.le_add_right _ _, off, htiles, Nat.le_refl _, .inl ⟨rfl, rfl⟩⟩
    · have hpos : 0 < rest.length := List.length_pos_iff.2 hne
      cases hd : decode t rest (base + BitVec.ofNat 64 off) with
      | bufferTooShort =>
        have h3 := length_le_three_of_decode_short hd
        rw [scanFrom_short t base fuel out hne hd]
        exact ⟨Nat.le_add_right _ _, off, htiles, Nat.le_add_right _ _, .inr ⟨rfl, by omega, by omega⟩⟩
      | ok r len =>
        obtain ⟨hl, hle⟩ := decode_ok_length hd
        have hdrop : (rest.drop len).length = rest.length - len := List.length_drop
        obtain ⟨hcount, hends⟩ := ih (rest := rest.drop len)
          (tiles_append_singleton htiles hl (decode_ok_valid hwf hd)) (by omega)
        rw [List.length_append, List.length_singleton] at hcount
        rw [hdrop, show off + len + (rest.length - len) = off + rest.length by omega] at hends
        rw [scanFrom_ok t base fuel out hne hd]
        exact ⟨by omega, hends⟩

/-- Settles O15: the loop from the empty output at offset 0. -/
theorem everyScanReturns : Obligations.EveryScanReturns := by
  intro M t buf base hwf
  have hempty : tiles 0 ([] : List (ScanEntry M)) 0 := rfl
  obtain ⟨hcount, hends⟩ := scanFrom_ends hwf base (fuel := buf.length + 1) (rest := buf) hempty (by omega)
  rw [List.length_nil, Nat.zero_add] at hcount
  rw [Nat.zero_add] at hends
  exact ⟨hcount, hends⟩

/-! ## A run of the machine is the scan (R125) -/

theorem run_succ_of_step {s t : State} (k : Nat) (h : step s = .next t) :
    Host.Core.run core (k + 1) s = Host.Core.run core k t := by
  have hstep : core.step s = .next t := h
  simp only [Host.Core.run, hstep]

/-- Assumption log 7: after the scan has returned, a run changes nothing. -/
theorem run_of_not_running {s : State} (hs : s.status ≠ .running) (k : Nat) :
    Host.Core.run core k s = .next s := by
  induction k with
  | zero => rfl
  | succ k ih => rw [run_succ_of_step k (step_of_not_running hs), ih]

/-- In lockstep: `k` steps of the machine are `k` iterations of the scan's loop from the same place. -/
theorem run_eq_scanFrom {s : State} (hwf : Memory.wf s.mem) (hs : s.status = .running) (k : Nat) :
    ∃ t : State, Host.Core.run core k s = .next t ∧
      (t.out, t.status) = scanFrom fmtTable s.base k s.window s.off s.out ∧ t.mem = s.mem ∧ t.base = s.base := by
  induction k generalizing s with
  | zero => exact ⟨s, rfl, by rw [hs]; rfl, rfl, rfl⟩
  | succ k ih =>
    by_cases h0 : s.inAvail = 0
    · have hdone : s.returnDone.status ≠ .running := nofun
      have hnil : s.window = [] := List.length_eq_zero_iff.1 h0
      refine ⟨s.returnDone, ?_, ?_, rfl, rfl⟩
      · rw [run_succ_of_step k (step_of_inAvail_eq_zero hs h0), run_of_not_running hdone]
      · rw [hnil, scanFrom_nil]; rfl
    · have hne : s.window ≠ [] := fun hnil => h0 (congrArg List.length hnil)
      have hstep := stepIsOneDecodeCall s hs h0
      cases hd : decode fmtTable s.window s.inAddr with
      | bufferTooShort =>
        have hshort : s.returnShort.status ≠ .running := nofun
        rw [hd, apply_bufferTooShort] at hstep
        refine ⟨s.returnShort, ?_, ?_, rfl, rfl⟩
        · rw [run_succ_of_step k hstep, run_of_not_running hshort]
        · rw [scanFrom_short fmtTable s.base k s.out hne hd]; rfl
      | ok r len =>
        obtain ⟨-, hle⟩ := decode_ok_length hd
        rw [hd, apply_ok] at hstep
        obtain ⟨t, hrun, hscan, hmem, hbase⟩ := ih (s := s.returnOk r len) hwf hs
        rw [returnOk_window r hwf hle] at hscan
        refine ⟨t, (run_succ_of_step k hstep).trans hrun, ?_, hmem, hbase⟩
        rw [hscan, scanFrom_ok fmtTable s.base k s.out hne hd]
        rfl

/-- Settles O14: the run is the scan's loop with `k` iterations, and so many more than half the bytes change
nothing. -/
theorem runningTheMachineIsTheScan : Obligations.RunningTheMachineIsTheScan := by
  intro buf base k hk
  obtain ⟨t, hrun, hscan, hmem, hbase⟩ := run_eq_scanFrom (load_wf buf base) (load_status buf base) k
  have hwindow : (State.load buf base).window = buf := ofBytes_window 0 0 buf
  refine ⟨t, hrun, ?_, hmem, hbase⟩
  rw [hscan, hwindow]
  exact scanFrom_fuel fmtTable base 0 [] hk (by omega)

end Sys2Proof.Machine
end

section
/-! PROOFS. The MOV family (43_ref_mov.md): the fetch of a row's word (R38, R41), the record an instruction returns
(`instrRecord`), said once for the table-driven `decode` and the typed `exec`, and the four rows of MOV (O21 to O24). -/

namespace Sys2Proof

/-! ## The fields of a halfword (R52, R62) -/

/-! A field of a halfword is the same field of the word it stands in (assumption log 14). -/

theorem fieldOp1_halfword (w : BitVec 16) : fieldOp1 (w.setWidth 32) = w.extractLsb' 0 8 :=
  BitVec.extractLsb'_setWidth_of_le (by decide)

theorem field11_8_halfword (w : BitVec 16) : field11_8 (w.setWidth 32) = w.extractLsb' 8 4 :=
  BitVec.extractLsb'_setWidth_of_le (by decide)

theorem field15_12_halfword (w : BitVec 16) : field15_12 (w.setWidth 32) = w.extractLsb' 12 4 :=
  BitVec.extractLsb'_setWidth_of_le (by decide)

/-- R51: the length bit of a word is bit 0 of its primary opcode. -/
theorem getLsbD_zero_of_op1 {n : Nat} {w : BitVec n} {op : BitVec 8} (h : w.extractLsb' 0 8 = op) :
    w.getLsbD 0 = op.getLsbD 0 := by
  rw [← h, BitVec.getLsbD_extractLsb']
  rfl

/-! ## Fetching a word stored little-endian (R38, R41, R111 to R113) -/

/-- R38: a read inside the stored bytes is that many low bytes of the number, whatever follows. -/
theorem memRead_leBytes (v : Nat) (rest : List Byte) {k n : Nat} (h : k ≤ n) :
    memRead (leBytes n v ++ rest) 0 k = some (v % 256 ^ k) := by
  have hwin : 0 + k ≤ (leBytes n v ++ rest).length := by
    rw [List.length_append, leBytes_length]; omega
  rw [memRead, if_pos hwin, List.drop_zero, List.take_append_of_le_length (by rwa [leBytes_length]),
    leBytes_take v h, leValue_leBytes]

theorem fetchWord_halfword {w : BitVec 16} (rest : List Byte) (hbit : w.getLsbD 0 = false) :
    fetchWord (leBytes 2 w.toNat ++ rest) = .ok (2, w.setWidth 32) := by
  have hread := memRead_leBytes w.toNat rest (Nat.le_refl 2)
  rw [Nat.mod_eq_of_lt (show w.toNat < 256 ^ 2 from w.isLt)] at hread
  rw [fetchWord_of_lenClass_two hread
    ((lenClass_eq_ite_testBit _).trans (if_neg (ne_true_of_eq_false hbit))), BitVec.ofNat_toNat]

theorem fetchWord_fullword {w : Word} (rest : List Byte) (hbit : w.getLsbD 0 = true) :
    fetchWord (leBytes 4 w.toNat ++ rest) = .ok (4, w) := by
  have hread := memRead_leBytes w.toNat rest (Nat.le_refl 4)
  rw [Nat.mod_eq_of_lt (show w.toNat < 256 ^ 4 from w.isLt)] at hread
  have hlow : (w.toNat % 256 ^ 2).testBit 0 = true := by
    rw [show 256 ^ 2 = 2 ^ 16 from rfl, Nat.testBit_mod_two_pow]
    exact hbit
  rw [fetchWord_of_lenClass_four (memRead_leBytes w.toNat rest (by decide))
    ((lenClass_eq_ite_testBit _).trans (if_pos hlow)) hread, BitVec.ofNat_toNat, BitVec.setWidth_eq]

theorem fetchWord_truncated_halfword (w : BitVec 16) {n : Nat} (hn : n < 2) :
    fetchWord ((leBytes 2 w.toNat).take n) = .error .bufferTooShort :=
  fetchWord_of_truncated (.inl ((List.length_take_le n _).trans_lt hn))

theorem fetchWord_truncated_fullword {w : Word} {n : Nat} (hn : n < 4) (hbit : w.getLsbD 0 = true) :
    fetchWord ((leBytes 4 w.toNat).take n) = .error .bufferTooShort := by
  rw [leBytes_take _ hn.le]
  apply fetchWord_of_truncated
  cases n with
  | zero => exact .inl Nat.zero_lt_two
  | succ k =>
    have hhead : ((leBytes (k + 1) w.toNat).headD 0).getLsbD 0 = true := by
      rw [leBytes, List.headD_cons, BitVec.getLsbD_ofNat]
      exact hbit
    rw [leBytes_length]
    rcases Nat.lt_or_ge (k + 1) 2 with hlt | hge
    · exact .inl hlt
    · exact .inr ⟨by omega, hhead⟩

namespace Machine

/-! ## The operands and the record of an instruction (R92, R96, R99, R115 to R119) -/

theorem buildRegister_gpr (n : BitVec 4) : buildRegister .gpr n.toNat = .ok (.register (dReg n)) := by
  rw [buildRegister, resolve_gpr]

/-- R83: the parity of an extended register's number is its lowest bit. -/
theorem toNat_mod_two_of_getLsbD {n : BitVec 4} {b : Bool} (h : n.getLsbD 0 = b) : n.toNat % 2 = b.toNat := by
  rw [← h, BitVec.getLsbD, Nat.toNat_testBit, pow_zero, Nat.div_one]

theorem buildRegister_ext_even {n : BitVec 4} (h : n.getLsbD 0 = false) :
    buildRegister .ext n.toNat = .ok (.register (eReg n)) := by
  rw [buildRegister, resolve_ext_even n (toNat_mod_two_of_getLsbD h)]

theorem buildRegister_ext_odd {n : BitVec 4} (h : n.getLsbD 0 = true) :
    buildRegister .ext n.toNat = .error .unknownRegister := by
  rw [buildRegister, resolve_ext_odd _ (toNat_mod_two_of_getLsbD h)]

theorem buildImmediate_signed {n : Nat} (hn : n ≠ 0) (v : BitVec n) :
    buildImmediate .signed v.toNat n = .ok (.immediate (v.signExtend 32)) := by
  rw [buildImmediate, extend_signed hn, sext_eq_signExtend (Nat.pos_of_ne_zero hn) v.isLt, BitVec.ofNat_toNat,
    BitVec.setWidth_eq]

/-- R119: one failing slot is the whole record's failure. -/
theorem recordOf_of_error_mem {M : Type} (m : Mnemonic M) (g : GroupSet)
    {built : List (Except DecodeError Operand)} {e : DecodeError} (h : .error e ∈ built) :
    recordOf m g built = invalidRecord := by
  obtain ⟨e', he'⟩ := collect_error h
  rw [recordOf, he']

/-- The record of an instruction, from its row and its own fields. -/
def instrRecord (j : Bool) (i : Instr) : Record RefMnemonic :=
  recordOf (instrRow j i).mnemonic (instrRow j i).groups (instrSlots i)

/-- R115 to R117: the record of two slots that resolve. -/
theorem instrRecord_pair (j : Bool) {i : Instr} {b b' : Except DecodeError Operand} {op op' : Operand}
    (hslots : instrSlots i = [b, b']) (h : b = .ok op) (h' : b' = .ok op') : instrRecord j i =
      ⟨(instrRow j i).mnemonic, (instrRow j i).groups, 2, OperandSlots.ofList [op, op']⟩ := by
  rw [instrRecord, hslots, h, h']
  rfl

theorem exec_eq_instrRecord (i : Instr) (s : State) :
    exec i s = .next (s.returnOk (instrRecord Config.retIsJump i) i.length) :=
  exec_eq_recordOf_instrSlots i s

/-- R114 to R117: a fetched word that decodes to an instruction gives the instruction's record. -/
theorem decode_eq_instrRecord (j : Bool) {win : List Byte} {len : Nat} {w : Word} {i : Instr} (addr : Addr)
    (hf : fetchWord win = .ok (len, w)) (hd : decodeWord len w = .ok i) :
    decode (refTable j) win addr = .ok (instrRecord j i) len := by
  obtain ⟨hl, -⟩ := fetchWord_length hf
  obtain ⟨-, hfields⟩ := fields_of_decodeWord hl hd
  rw [decode_of_dispatch_some addr hf (dispatch_of_decodeWord_ok j hl hd), entryRecord,
    build_slots_of_fields j i hfields, instrRecord]

section Windows

variable (j : Bool) (rest : List Byte) (addr : Addr) {op : BitVec 8} {i : Instr}

/-- R51, R114: a stored word of the 16-bit class, whatever follows it. -/
theorem decode_halfword {w : BitVec 16} (hop : w.extractLsb' 0 8 = op) (hbit : op.getLsbD 0 = false)
    (hd : decode16 (w.setWidth 32) = .ok i) :
    decode (refTable j) (leBytes 2 w.toNat ++ rest) addr = .ok (instrRecord j i) 2 :=
  decode_eq_instrRecord j addr (fetchWord_halfword rest ((getLsbD_zero_of_op1 hop).trans hbit)) hd

/-- R51, R114: a stored word of the 32-bit class, whatever follows it. -/
theorem decode_fullword {w : Word} (hop : w.extractLsb' 0 8 = op) (hbit : op.getLsbD 0 = true)
    (hd : decode32 w = .ok i) :
    decode (refTable j) (leBytes 4 w.toNat ++ rest) addr = .ok (instrRecord j i) 4 :=
  decode_eq_instrRecord j addr (fetchWord_fullword rest ((getLsbD_zero_of_op1 hop).trans hbit)) hd

/-- R111. -/
theorem decode_truncated_halfword (w : BitVec 16) {n : Nat} (hn : n < 2) :
    decode (refTable j) ((leBytes 2 w.toNat).take n) addr = .bufferTooShort :=
  decode_of_fetchWord_error _ addr (fetchWord_truncated_halfword w hn)

/-- R111, R113. -/
theorem decode_truncated_fullword {w : Word} {n : Nat} (hn : n < 4) (hop : w.extractLsb' 0 8 = op)
    (hbit : op.getLsbD 0 = true) : decode (refTable j) ((leBytes 4 w.toNat).take n) addr = .bufferTooShort :=
  decode_of_fetchWord_error _ addr (fetchWord_truncated_fullword hn ((getLsbD_zero_of_op1 hop).trans hbit))

end Windows

/-! ## The records of the MOV rows (R140 to R143) -/

section MovRecords

variable (j : Bool)

theorem instrRecord_movSrc (a c : BitVec 4) : instrRecord j (.movSrc a c) =
    ⟨.real .mov, ⟨false⟩, 2, OperandSlots.ofList [.register (dReg a), .immediate (c.signExtend 32)]⟩ :=
  instrRecord_pair j rfl (buildRegister_gpr a) (buildImmediate_signed (by decide) c)

theorem instrRecord_movSrr (a b : BitVec 4) : instrRecord j (.movSrr a b) =
    ⟨.real .mov, ⟨false⟩, 2, OperandSlots.ofList [.register (dReg a), .register (dReg b)]⟩ :=
  instrRecord_pair j rfl (buildRegister_gpr a) (buildRegister_gpr b)

theorem instrRecord_movRlc (c : BitVec 4) (k : BitVec 16) : instrRecord j (.movRlc c k) =
    ⟨.real .mov, ⟨false⟩, 2, OperandSlots.ofList [.register (dReg c), .immediate (k.signExtend 32)]⟩ :=
  instrRecord_pair j rfl (buildRegister_gpr c) (buildImmediate_signed (by decide) k)

variable {a : BitVec 4} (c : BitVec 4)

theorem instrRecord_movESrc_even (h : a.getLsbD 0 = false) : instrRecord j (.movESrc a c) =
    ⟨.real .mov, ⟨false⟩, 2, OperandSlots.ofList [.register (eReg a), .immediate (c.signExtend 32)]⟩ :=
  instrRecord_pair j rfl (buildRegister_ext_even h) (buildImmediate_signed (by decide) c)

theorem instrRecord_movESrc_odd (h : a.getLsbD 0 = true) : instrRecord j (.movESrc a c) = invalidRecord := by
  rw [instrRecord, instrSlots, buildRegister_ext_odd h]
  exact recordOf_of_error_mem _ _ List.mem_cons_self

end MovRecords

/-! ## The statements -/

/-- Settles O21: `decode` and `exec` return the record of `movSrc`. -/
theorem movSrcReturnsItsRecord : Obligations.MovSrcReturnsItsRecord := by
  refine ⟨fun j w rest addr h => ?decoded, fun j w n addr _ hn => decode_truncated_halfword j addr w hn,
    fun a c s => ?executed⟩
  case decoded =>
    rw [decode_halfword j rest addr h rfl (decode16_movSrc ((fieldOp1_halfword w).trans h)), instrRecord_movSrc,
      field11_8_halfword, field15_12_halfword]
  case executed =>
    rw [exec_eq_instrRecord, instrRecord_movSrc]
    rfl

/-- Settles O22: `decode` and `exec` return the record of `movSrr`. -/
theorem movSrrReturnsItsRecord : Obligations.MovSrrReturnsItsRecord := by
  refine ⟨fun j w rest addr h => ?decoded, fun j w n addr _ hn => decode_truncated_halfword j addr w hn,
    fun a b s => ?executed⟩
  case decoded =>
    rw [decode_halfword j rest addr h rfl (decode16_movSrr ((fieldOp1_halfword w).trans h)), instrRecord_movSrr,
      field11_8_halfword, field15_12_halfword]
  case executed =>
    rw [exec_eq_instrRecord, instrRecord_movSrr]
    rfl

/-- Settles O23: `decode` and `exec` return the record of `movRlc`, in which the bits `w[11:8]` do not appear. -/
theorem movRlcReturnsItsRecord : Obligations.MovRlcReturnsItsRecord := by
  refine ⟨fun j w rest addr h => ?decoded, fun j w n addr h hn => decode_truncated_fullword j addr hn h rfl,
    fun c k s => ?executed⟩
  case decoded =>
    rw [decode_fullword j rest addr h rfl (decode32_movRlc h), instrRecord_movRlc, field31_28, field27_12]
  case executed =>
    rw [exec_eq_instrRecord, instrRecord_movRlc]
    rfl

/-- Settles O24: the lowest bit of the register field, bit 8 of the word, says whether the register slot
resolves. -/
theorem movESrcReturnsItsRecord : Obligations.MovESrcReturnsItsRecord := by
  refine ⟨fun j w rest addr h => ?decoded, fun j w n addr _ hn => decode_truncated_halfword j addr w hn,
    fun a c s heven => ?even, fun a c s hodd => ?odd⟩
  case decoded =>
    have hparity : (w.extractLsb' 8 4).getLsbD 0 = w.getLsbD 8 := by
      rw [BitVec.getLsbD_extractLsb']
      rfl
    rw [decode_halfword j rest addr h rfl (decode16_movESrc ((fieldOp1_halfword w).trans h)), field11_8_halfword,
      field15_12_halfword]
    split
    · next hodd => rw [instrRecord_movESrc_odd j _ (hparity.trans hodd)]
    · next heven => rw [instrRecord_movESrc_even j _ (hparity.trans (eq_false_of_ne_true heven))]
  case even =>
    rw [exec_eq_instrRecord, instrRecord_movESrc_even _ c heven]
    rfl
  case odd =>
    rw [exec_eq_instrRecord, instrRecord_movESrc_odd _ c hodd]
    rfl

end Machine
end Sys2Proof
end

section
/-! PROOFS. The RET family (44_ref_ret.md): the stored words no row names (R118), and the two rows of RET, 16-bit (O25)
and 32-bit (O26). -/

namespace Sys2Proof

/-! ## RET with another `op2` is no row (R64, R70) -/

theorem decode16_ret_other {w : Word} (h : fieldOp1 w = 0x00) (h2 : field15_12 w ≠ 0x9#4) :
    decode16 w = .error .unrecognizedOpcode := by
  simp [decode16, h, h2]

theorem decode32_ret_other {w : Word} (h : fieldOp1 w = 0x0D) (h2 : field27_22 w ≠ 0x06#6) :
    decode32 w = .error .unrecognizedOpcode := by
  simp [decode32, h, h2]

namespace Machine

section Windows

variable (j : Bool) (rest : List Byte) (addr : Addr) {op : BitVec 8} {e : DecodeError}

/-- R51, R118: a stored word of the 16-bit class that no row names, whatever follows it. -/
theorem decode_halfword_invalid {w : BitVec 16} (hop : w.extractLsb' 0 8 = op) (hbit : op.getLsbD 0 = false)
    (hd : decode16 (w.setWidth 32) = .error e) :
    decode (refTable j) (leBytes 2 w.toNat ++ rest) addr = .ok invalidRecord 2 :=
  decode_of_dispatch_none addr (fetchWord_halfword rest ((getLsbD_zero_of_op1 hop).trans hbit))
    (dispatch_of_decodeWord_error j hd)

/-- R51, R118: a stored word of the 32-bit class that no row names, whatever follows it. -/
theorem decode_fullword_invalid {w : Word} (hop : w.extractLsb' 0 8 = op) (hbit : op.getLsbD 0 = true)
    (hd : decode32 w = .error e) :
    decode (refTable j) (leBytes 4 w.toNat ++ rest) addr = .ok invalidRecord 4 :=
  decode_of_dispatch_none addr (fetchWord_fullword rest ((getLsbD_zero_of_op1 hop).trans hbit))
    (dispatch_of_decodeWord_error j hd)

end Windows

/-! ## The records of the RET rows: the same record, of two lengths (R150, R151) -/

theorem instrRecord_retSr (j : Bool) :
    instrRecord j .retSr = ⟨.real .ret, ⟨j⟩, 0, OperandSlots.ofList []⟩ := rfl

theorem instrRecord_retSys (j : Bool) :
    instrRecord j .retSys = ⟨.real .ret, ⟨j⟩, 0, OperandSlots.ofList []⟩ := rfl

/-! ## The statements -/

/-- Settles O25: `op2` alone tells `retSr` from a word of no row, and `decode` and `exec` return its record. -/
theorem retSrReturnsItsRecord : Obligations.RetSrReturnsItsRecord := by
  refine ⟨fun j w rest addr h h2 => ?decoded, fun j w rest addr h h2 => ?otherOp2,
    fun j w n addr _ hn => decode_truncated_halfword j addr w hn, fun s => ?executed⟩
  case decoded =>
    rw [decode_halfword j rest addr h rfl
      (decode16_retSr ((fieldOp1_halfword w).trans h) ((field15_12_halfword w).trans h2)), instrRecord_retSr]
  case otherOp2 =>
    have hop2 : field15_12 (w.setWidth 32) ≠ 0x9#4 := by rwa [field15_12_halfword]
    exact decode_halfword_invalid j rest addr h rfl (decode16_ret_other ((fieldOp1_halfword w).trans h) hop2)
  case executed =>
    rw [exec_eq_instrRecord, instrRecord_retSr]
    rfl

/-- Settles O26: `op2` alone tells `retSys` from a word of no row, and `decode` and `exec` return its record. -/
theorem retSysReturnsItsRecord : Obligations.RetSysReturnsItsRecord := by
  refine ⟨fun j w rest addr h h2 => ?decoded, fun j w rest addr h h2 => ?otherOp2,
    fun j w n addr h hn => decode_truncated_fullword j addr hn h rfl, fun s => ?executed⟩
  case decoded =>
    rw [decode_fullword j rest addr h rfl (decode32_retSys h h2), instrRecord_retSys]
  case otherOp2 =>
    exact decode_fullword_invalid j rest addr h rfl (decode32_ret_other h h2)
  case executed =>
    rw [exec_eq_instrRecord, instrRecord_retSys]
    rfl

end Machine
end Sys2Proof
end

section
/-! PROOFS. The LD.W family (45_ref_ld_w.md): the offset fields as R63 writes them, the memory operand of an
instruction (R97), and the three rows of LD.W (O27 to O29). -/

namespace Sys2Proof

/-! ## The offsets of BO and BOL (R63) -/

theorem fieldOff10_eq_append (w : Word) : fieldOff10 w = w.extractLsb' 28 4 ++ w.extractLsb' 16 6 := rfl

theorem fieldOff16_eq_append (w : Word) :
    fieldOff16 w = w.extractLsb' 22 6 ++ w.extractLsb' 28 4 ++ w.extractLsb' 16 6 :=
  BitVec.append_assoc.symm

/-! ## LD.W with another `op2` is no row (R64, R70) -/

theorem decode32_ldWBo_other {w : Word} (h : fieldOp1 w = 0x09) (h2 : field27_22 w ≠ 0x24#6) :
    decode32 w = .error .unrecognizedOpcode := by
  simp [decode32, h, h2]

namespace Machine

/-! ## The memory operand of an instruction (R92, R94, R97) -/

theorem buildMemory_addr (b : BitVec 4) (x : Extension) (r n : Nat) :
    buildMemory .addr b.toNat x r n = .ok (.memory (aReg b) (extend x r n)) := by
  rw [buildMemory, resolve_addr]

theorem buildMemory_addr_signed {n : Nat} (hn : n ≠ 0) (b : BitVec 4) (o : BitVec n) :
    buildMemory .addr b.toNat .signed o.toNat n = .ok (.memory (aReg b) (o.signExtend 32)) := by
  rw [buildMemory_addr, extend_signed hn, sext_eq_signExtend (Nat.pos_of_ne_zero hn) o.isLt, BitVec.ofNat_toNat,
    BitVec.setWidth_eq]

/-! ## The records of the LD.W rows (R155 to R157) -/

section LdWRecords

variable (j : Bool)

theorem instrRecord_ldWBo (a b : BitVec 4) (o : BitVec 10) : instrRecord j (.ldWBo a b o) =
    ⟨.real .ldW, ⟨false⟩, 2, OperandSlots.ofList [.register (dReg a), .memory (aReg b) (o.signExtend 32)]⟩ :=
  instrRecord_pair j rfl (buildRegister_gpr a) (buildMemory_addr_signed (by decide) b o)

theorem instrRecord_ldWBol (a b : BitVec 4) (o : BitVec 16) : instrRecord j (.ldWBol a b o) =
    ⟨.real .ldW, ⟨false⟩, 2, OperandSlots.ofList [.register (dReg a), .memory (aReg b) (o.signExtend 32)]⟩ :=
  instrRecord_pair j rfl (buildRegister_gpr a) (buildMemory_addr_signed (by decide) b o)

/-- R61, R94: without a displacement field the displacement is 0. -/
theorem instrRecord_ldWSlr (c b : BitVec 4) : instrRecord j (.ldWSlr c b) =
    ⟨.real .ldW, ⟨false⟩, 2, OperandSlots.ofList [.register (dReg c), .memory (aReg b) 0]⟩ :=
  instrRecord_pair j rfl (buildRegister_gpr c) (buildMemory_addr b .signed 0 0)

end LdWRecords

/-! ## The statements -/

/-- Settles O27: `op2` alone tells `ldWBo` from a word of no row, and `decode` and `exec` return its record. -/
theorem ldWBoReturnsItsRecord : Obligations.LdWBoReturnsItsRecord := by
  refine ⟨fun j w rest addr h h2 => ?decoded, fun j w rest addr h h2 => ?otherOp2,
    fun j w n addr h hn => decode_truncated_fullword j addr hn h rfl, fun a b o s => ?executed⟩
  case decoded =>
    rw [decode_fullword j rest addr h rfl (decode32_ldWBo h h2), instrRecord_ldWBo, field11_8, field15_12,
      fieldOff10_eq_append]
  case otherOp2 =>
    exact decode_fullword_invalid j rest addr h rfl (decode32_ldWBo_other h h2)
  case executed =>
    rw [exec_eq_instrRecord, instrRecord_ldWBo]
    rfl

/-- Settles O28: `decode` and `exec` return the record of `ldWBol`, the offset in three pieces. -/
theorem ldWBolReturnsItsRecord : Obligations.LdWBolReturnsItsRecord := by
  refine ⟨fun j w rest addr h => ?decoded, fun j w n addr h hn => decode_truncated_fullword j addr hn h rfl,
    fun a b o s => ?executed⟩
  case decoded =>
    rw [decode_fullword j rest addr h rfl (decode32_ldWBol h), instrRecord_ldWBol, field11_8, field15_12,
      fieldOff16_eq_append]
  case executed =>
    rw [exec_eq_instrRecord, instrRecord_ldWBol]
    rfl

/-- Settles O29: `decode` and `exec` return the record of `ldWSlr`. -/
theorem ldWSlrReturnsItsRecord : Obligations.LdWSlrReturnsItsRecord := by
  refine ⟨fun j w rest addr h => ?decoded, fun j w n addr _ hn => decode_truncated_halfword j addr w hn,
    fun c b s => ?executed⟩
  case decoded =>
    rw [decode_halfword j rest addr h rfl (decode16_ldWSlr ((fieldOp1_halfword w).trans h)), instrRecord_ldWSlr,
      field11_8_halfword, field15_12_halfword]
  case executed =>
    rw [exec_eq_instrRecord, instrRecord_ldWSlr]
    rfl

end Machine
end Sys2Proof
end

section
/-! PROOFS. The exceptions family (60_exceptions.md): when a fetch fails and `decode` comes back short (O36), the one
slot of `REF_TABLE` that names no register (O30), what follows the scan's return (O6), and the retry (O19). -/

namespace Sys2Proof

/-! ## The two situations of `BufferTooShort` (R111, R113, R173) -/

/-- The fetch fails exactly on a window shorter than its class asks for. -/
theorem fetchWord_eq_error_iff {win : List Byte} : fetchWord win = .error .bufferTooShort ↔
    win.length < 2 ∨ ((win.length = 2 ∨ win.length = 3) ∧ (win.headD 0).getLsbD 0 = true) := by
  refine ⟨fun h => ?_, fetchWord_of_truncated⟩
  match win with
  | [] => exact .inl Nat.two_pos
  | [_] => exact .inl Nat.one_lt_two
  | b0 :: b1 :: rest =>
    cases hbit : b0.getLsbD 0 with
    | false => cases (fetchWord_of_bit_clear b1 rest hbit).symm.trans h
    | true =>
      have hle := length_le_three_of_fetchWord_error h
      have hge : 2 ≤ (b0 :: b1 :: rest).length := Nat.le_add_left _ _
      exact .inr ⟨by omega, hbit⟩

/-- The class and field of the one register a slot's descriptor names, if it names one. -/
def Descriptor.regField : Descriptor → Option (RegClass × Piece)
  | .regOp cls f => some (cls, f)
  | .immOp _ _ => none
  | .memOp cls f _ _ => some (cls, f)

namespace Machine

/-- R171 to R173: a call comes back short exactly if its fetch fails; dispatch and operands never cause it. -/
theorem decode_eq_bufferTooShort_iff {M : Type} {t : Table M} {win : List Byte} {addr : Addr} :
    decode t win addr = .bufferTooShort ↔ fetchWord win = .error .bufferTooShort := by
  refine ⟨fun h => ?_, decode_of_fetchWord_error t addr⟩
  rcases decode_cases t win addr with ⟨hf, -⟩ | ⟨len, w, -, hd | ⟨e, -, -, hd⟩⟩
  · exact hf
  · cases hd.symm.trans h
  · cases hd.symm.trans h

/-- Settles O36: the call and its fetch fail together, and a failed fetch saw at most 3 bytes. -/
theorem bufferTooShortExactlyWhenTruncated : Obligations.BufferTooShortExactlyWhenTruncated := by
  intro M t win addr
  refine ⟨decode_eq_bufferTooShort_iff.trans fetchWord_eq_error_iff, fun h4 h => ?_⟩
  exact absurd (length_le_three_of_decode_short h) (Nat.not_le_of_lt h4)

/-! ## Register fields that name no register (R84, R98, R172) -/

section RegisterFields

variable {d : Descriptor} {w : Word} {x : DecodeError} {cls : RegClass} {f : Piece}

/-- R98, R99: a slot fails only by its register field. -/
theorem exists_regField_of_build_error (h : build d w = .error x) :
    ∃ cls f, (cls, f) ∈ d.regField ∧ resolve cls (extract w f) = .error .unknownRegister := by
  cases d with
  | immOp ps y => cases (build_immOp ps y w).symm.trans h
  | regOp cls f =>
    refine ⟨cls, f, rfl, (resolve_cases cls (extract w f)).resolve_left ?_⟩
    rintro ⟨r, hr, -⟩
    cases (build_regOp_of_resolve_ok hr).symm.trans h
  | memOp cls f ps y =>
    refine ⟨cls, f, rfl, (resolve_cases cls (extract w f)).resolve_left ?_⟩
    rintro ⟨r, hr, -⟩
    cases (build_memOp_of_resolve_ok hr ps y).symm.trans h

/-- R81 to R83: of the numbers a 4-bit field can hold, only an odd one of an extended pair names no register. -/
theorem ext_odd_of_resolve_error {n : Nat} (hn : n < 16) (h : resolve cls n = .error x) :
    cls = .ext ∧ n % 2 = 1 := by
  cases cls with
  | gpr => cases (lookupReg_of_lt (regs := gprRegs) hn).symm.trans h
  | addr => cases (lookupReg_of_lt (regs := addrRegs) hn).symm.trans h
  | ext =>
    refine ⟨rfl, (Nat.mod_two_eq_zero_or_one n).resolve_left fun heven => ?_⟩
    have hhalf : n / 2 < extRegs.length := Nat.div_lt_of_lt_mul hn
    rw [resolve_ext_of_even heven, lookupReg_of_lt hhalf] at h
    cases h

/-- W7, as a property of the slots' register fields. -/
theorem width_of_regFields4 {M : Type} {e : Entry M} (h4 : e.regFields4 = true) (hd : d ∈ e.slots)
    (hf : (cls, f) ∈ d.regField) : f.width = 4 := by
  have hslot := List.all_eq_true.1 h4 d hd
  cases d <;> cases hf <;> exact beq_iff_eq.1 hslot

/-- An odd field has its lowest bit set in the word. -/
theorem getLsbD_of_extract_odd (h : extract w f % 2 = 1) : w.getLsbD f.lo = true := by
  have hbit : (extract w f).testBit 0 = true := by rw [Nat.testBit_zero, decide_eq_true h]
  rw [testBit_extract, Bool.and_eq_true] at hbit
  exact hbit.2

end RegisterFields

/-- R64: the destination of MOV_E_SRC is the one extended register field of `REF_TABLE`. -/
theorem refTable_ext_regField (j : Bool) : ∀ e ∈ refTable j, ∀ d ∈ e.slots, ∀ clsField ∈ d.regField,
    clsField.1 = .ext → e = rowMovESrc ∧ clsField.2 = ⟨11, 8⟩ := by
  cases j <;> decide

/-- Settles O30: the slot that fails has a 4-bit register field, so it is an odd number of an extended pair, and
only MOV_E_SRC has such a field, at bit 8. -/
theorem onlyAnOddExtendedRegisterIsUnknown : Obligations.OnlyAnOddExtendedRegisterIsUnknown := by
  intro j len w e d x hdispatch hd hx
  have he : e ∈ refTable j := List.mem_of_find?_eq_some hdispatch
  obtain ⟨hunknown, -⟩ := (buildNeverAnswersInvalid d w).2 x hx
  obtain ⟨cls, f, hf, hresolve⟩ := exists_regField_of_build_error hx
  have hwidth : f.width = 4 := width_of_regFields4 (refTable_regFields4 j e he) hd hf
  have hlt : extract w f < 2 ^ 4 := hwidth ▸ extract_lt w f
  obtain ⟨hext, hodd⟩ := ext_odd_of_resolve_error hlt hresolve
  obtain ⟨hrow, rfl⟩ := refTable_ext_regField j e he d hd (cls, f) hf hext
  exact ⟨hrow, getLsbD_of_extract_odd hodd, hunknown⟩

/-! ## After the scan has returned (assumption log 7) -/

/-- Settles O6: neither final status is running. -/
theorem nothingHappensAfterTheScan : Obligations.NothingHappensAfterTheScan := by
  rintro s (hdone | ⟨k, hshort⟩)
  · exact step_of_not_running (hdone ▸ nofun)
  · exact step_of_not_running (hshort ▸ nofun)

/-! ## The retry (R181, assumption log 15) -/

/-- A byte written just past the end of a buffer is appended to it. -/
theorem write_ofBytes_end (a : Nat) (bs : List Byte) (b : Byte) :
    Memory.write (Memory.ofBytes a bs) (a + bs.length) b = Memory.ofBytes a (bs ++ [b]) := by
  induction bs generalizing a with
  | nil => rfl
  | cons y bs ih =>
    have hlt : a < a + (y :: bs).length := Nat.lt_add_of_pos_right (Nat.succ_pos _)
    have hend : a + (y :: bs).length = a + 1 + bs.length := by rw [List.length_cons, Nat.add_right_comm, Nat.add_assoc]
    rw [Memory.ofBytes, Memory.write, if_pos hlt, hend, ih, List.cons_append, Memory.ofBytes]

theorem writeBytes_ofBytes_end (a : Nat) (bs more : List Byte) :
    Memory.writeBytes (Memory.ofBytes a bs) (a + bs.length) more = Memory.ofBytes a (bs ++ more) := by
  induction more generalizing bs with
  | nil => rw [Memory.writeBytes, List.append_nil]
  | cons b more ih =>
    have hrest := ih (bs ++ [b])
    rw [List.length_append, List.append_assoc] at hrest
    rw [Memory.writeBytes, write_ofBytes_end]
    exact hrest

section Retry

variable {s : State} {k : Nat}

theorem retryWith_of_stoppedShort (hs : s.status = .stoppedShort k) (more : List Byte) : s.retryWith more =
    { s with mem := Memory.writeBytes s.mem (s.off + s.inAvail) more, status := .running } := by
  rw [State.retryWith, hs]

variable (hinv : s.Inv)
include hinv

/-- In a consistent state the old window reaches to the end of the buffer, so the new bytes are appended there. -/
theorem inv_writeBytes_past_window (more : List Byte) :
    Memory.writeBytes s.mem (s.off + s.inAvail) more = Memory.ofBytes 0 (s.mem.map Prod.snd ++ more) := by
  have havail := inv_inAvail hinv
  obtain ⟨hcontiguous, hoff, -⟩ := hinv
  have hend : s.off + s.inAvail = 0 + (s.mem.map Prod.snd).length := by
    rw [List.length_map]
    omega
  rw [← writeBytes_ofBytes_end, ← contiguous_iff.1 hcontiguous, hend]

end Retry

/-- Settles O19: the new buffer is the old bytes and `more`, which the window at the offset shows. -/
theorem retryIsACallWithALongerWindow : Obligations.RetryIsACallWithALongerWindow := by
  intro s k more hinv hs
  rw [retryWith_of_stoppedShort hs, inv_writeBytes_past_window hinv]
  obtain ⟨hcontiguous, hoff, htiles, -, -⟩ := hinv
  have hbytes : s.off ≤ (s.mem.map Prod.snd).length := by rwa [List.length_map]
  refine ⟨rfl, rfl, rfl, rfl, ?window, ofBytes_contiguous _, ?inside, htiles, fun hd => (nomatch hd),
    fun _ hk => nomatch hk⟩
  case window =>
    rw [State.window, State.window, contiguous_window (ofBytes_contiguous _), ofBytes_bytes,
      contiguous_window hcontiguous, List.drop_append_of_le_length hbytes]
  case inside =>
    rw [ofBytes_length, List.length_append]
    exact Nat.le_add_right_of_le hbytes

end Machine
end Sys2Proof
end

section
/-! PROOFS. The worked examples of 43_ref_mov.md, 44_ref_ret.md and 45_ref_ld_w.md (O34): the numbered word of an
encoding decodes to its instruction, so each example is one comparison of numbers. -/

namespace Sys2Proof

/-- Numbered with the bits of its row, an instruction's word is stored as its encoding and padding after it. -/
theorem tableWordBytes_encodeWord (i : Instr) : ∃ rest,
    tableWordBytes (8 * i.length) (encodeWord i).toNat = encode i ++ rest := by
  have hlen : i.length ≤ 4 := by
    rcases i.length_eq with h | h <;> omega
  have hmod : (encodeWord i).toNat % 2 ^ (8 * i.length) = (encodeWord i).toNat := by
    rw [Nat.pow_mul]
    exact Nat.mod_eq_of_lt (encodeWord_lt i)
  refine ⟨(leBytes 4 (encodeWord i).toNat).drop i.length, ?_⟩
  rw [tableWordBytes, hmod, encode, ← leBytes_take _ hlen, List.take_append_drop]

/-- The round trip of O32 for words numbered as spec/opcode_table.json numbers them. -/
theorem decodeTableWord_encodeWord {i : Instr} {nbits w : Nat} (hbits : 8 * i.length = nbits)
    (hw : (encodeWord i).toNat = w) : decodeTableWord nbits w = some i := by
  subst hbits hw
  obtain ⟨rest, hbytes⟩ := tableWordBytes_encodeWord i
  rw [decodeTableWord, hbytes, decodeOfEncodeIsTheInstruction i rest]

/-- Settles O34: each example is its instruction's own encoding; `0x0000` has the `op1` of RET and another `op2`. -/
theorem exampleWordsDecode : Obligations.ExampleWordsDecode := by
  refine ⟨?movSrc, ?movSrr, ?movESrc, ?retSr, ?ldWSlr, ?movRlc, ?retSys, ?ldWBo, ?ldWBol, ?noRow⟩
  case noRow => decide
  all_goals exact decodeTableWord_encodeWord rfl rfl

end Sys2Proof
end
